-- ==== Sys2Proof/Word.lean ====
section
/-!
DEFINITION. The machine's units of data: the 16-bit word, the 8-bit byte and the 3-bit register index
(00_scope.md R4, R5).
-/

namespace Sys2Proof

/-- A word is 16 bits: a register, an address, a memory cell, an instruction (00_scope.md R5). -/
abbrev Word := BitVec 16

/-- A byte is 8 bits: a character, a trap vector (00_scope.md R5). -/
abbrev Byte := BitVec 8

/-- A general register's index, 3 bits, so never out of range (10_state.md R10). -/
abbrev Reg := BitVec 3

end Sys2Proof
end

