-- ==== Sys2Proof/Syntax.lean ====
section
/-!
DEFINITION. The instruction set: one constructor of `Instr` for each of the 25 rows of spec/opcode_table.json
(30_encoding.md R55 and section 6). Bits the spec calls ignored are no part of an instruction (R57).
-/

namespace Sys2Proof

/-- The closed enumeration of 16 opcodes, `invalid` among them (30_encoding.md R54). `jsr` is the one code of JSR and
JSRR. -/
inductive Opcode where
  | br | add | ld | st | jsr | and | ldr | str | rti | not | ldi | sti | jmp | invalid | lea | trap
  deriving DecidableEq, Repr

/-- An instruction. Fields in the order the assembly writes them (30_encoding.md R60); immediates and offsets are the
raw fields of R53, extended where they are used. -/
inductive Instr where
  /-- BR, R80: enable bits for N, Z, P. -/
  | br (n z p : Bool) (off9 : BitVec 9)
  /-- ADD register form, R70: `a` destination, `b` first source, `sr2` second source. -/
  | addReg (a b sr2 : Reg)
  /-- ADD immediate form, R71. -/
  | addImm (a b : Reg) (imm5 : BitVec 5)
  /-- LD, R90. -/
  | ld (a : Reg) (off9 : BitVec 9)
  /-- ST, R94. -/
  | st (a : Reg) (off9 : BitVec 9)
  /-- JSRR, R84. -/
  | jsrr (b : Reg)
  /-- JSR, R83. -/
  | jsr (off11 : BitVec 11)
  /-- AND register form, R72. -/
  | andReg (a b sr2 : Reg)
  /-- AND immediate form, R73. -/
  | andImm (a b : Reg) (imm5 : BitVec 5)
  /-- LDR, R92. -/
  | ldr (a b : Reg) (off6 : BitVec 6)
  /-- STR, R96. -/
  | str (a b : Reg) (off6 : BitVec 6)
  /-- RTI, R110. -/
  | rti
  /-- NOT, R74. -/
  | not (a b : Reg)
  /-- LDI, R91. -/
  | ldi (a : Reg) (off9 : BitVec 9)
  /-- STI, R95. -/
  | sti (a : Reg) (off9 : BitVec 9)
  /-- JMP, R82. -/
  | jmp (b : Reg)
  /-- The INVALID code, R111. -/
  | invalid
  /-- LEA, R93. -/
  | lea (a : Reg) (off9 : BitVec 9)
  /-- TRAP with a vector that names no service, R107. -/
  | trap (vect8 : Byte)
  /-- TRAP x20, R101. -/
  | getc
  /-- TRAP x21, R102. -/
  | out
  /-- TRAP x22, R103. -/
  | puts
  /-- TRAP x23 (IN), R104. -/
  | inp
  /-- TRAP x24, R105. -/
  | putsp
  /-- TRAP x25, R106. -/
  | halt
  deriving DecidableEq, Repr

end Sys2Proof
end

