-- ==== Sys2Proof/WellFormed.lean ====
section
/-!
DEFINITION. Which terms of `Instr` are instructions. Field widths are in the types, so one check is left: the row TRAP
stands only for a vector that is none of the six services, which have rows of their own (30_encoding.md section 6,
43_system.md R107).
-/

namespace Sys2Proof

/-- The six trap vectors that name a service (30_encoding.md R55). -/
def serviceVectors : List Byte := [0x20#8, 0x21#8, 0x22#8, 0x23#8, 0x24#8, 0x25#8]

/-- The well-formed instructions. -/
def Instr.wf : Instr → Bool
  | .trap vect8 => !serviceVectors.contains vect8
  | .br _ _ _ _ | .addReg _ _ _ | .addImm _ _ _ | .ld _ _ | .st _ _ | .jsrr _ | .jsr _ | .andReg _ _ _
  | .andImm _ _ _ | .ldr _ _ _ | .str _ _ _ | .rti | .not _ _ | .ldi _ _ | .sti _ _ | .jmp _ | .invalid | .lea _ _
  | .getc | .out | .puts | .inp | .putsp | .halt => true

end Sys2Proof
end

