-- ==== Sys2Proof/Decode.lean ====
section
/-!
DEFINITION. From an instruction word to an instruction and back: `OPCODE_MAP`, the fields, the total decoder, the
encoder, and the opcode table's rows as masks and patterns (30_encoding.md R50 to R57). Decoding never fails: every one of
the 65536 words is an instruction, the INVALID code among them (R54).
-/

namespace Sys2Proof

/-! ## The opcode map -/

/-- `OPCODE_MAP`, indexed by the 4-bit code (30_encoding.md R55). PRESUMED: only 0b1101 is the source's; the other codes
are the LC-3 assignment of the spec's decision D1 (notes/assumptions 1). -/
def opcodeTable : Vector Opcode 16 :=
  #v[.br, .add, .ld, .st, .jsr, .and, .ldr, .str, .rti, .not, .ldi, .sti, .jmp, .invalid, .lea, .trap]

/-- The opcode a 4-bit code selects; total (30_encoding.md R54). -/
def opcodeMap (code : BitVec 4) : Opcode := opcodeTable[code.toNat]'code.isLt

/-- The code of an opcode, the other direction of the same table (30_encoding.md R55). -/
def opcodeCode : Opcode → BitVec 4
  | .br => 0b0000#4
  | .add => 0b0001#4
  | .ld => 0b0010#4
  | .st => 0b0011#4
  | .jsr => 0b0100#4
  | .and => 0b0101#4
  | .ldr => 0b0110#4
  | .str => 0b0111#4
  | .rti => 0b1000#4
  | .not => 0b1001#4
  | .ldi => 0b1010#4
  | .sti => 0b1011#4
  | .jmp => 0b1100#4
  | .invalid => 0b1101#4
  | .lea => 0b1110#4
  | .trap => 0b1111#4

/-! ## The fields of a word (30_encoding.md R51 to R53) -/

/-- `opcode = ir[15:12]`. -/
def fieldOpcode (ir : Word) : BitVec 4 := ir.extractLsb' 12 4

/-- `a = ir[11:9]`. -/
def fieldA (ir : Word) : Reg := ir.extractLsb' 9 3

/-- `b = ir[8:6]`. -/
def fieldB (ir : Word) : Reg := ir.extractLsb' 6 3

/-- `SR2 = ir[2:0]`. -/
def fieldSr2 (ir : Word) : Reg := ir.extractLsb' 0 3

/-- `imm5 = ir[4:0]`. -/
def fieldImm5 (ir : Word) : BitVec 5 := ir.extractLsb' 0 5

/-- `off6 = ir[5:0]`. -/
def fieldOff6 (ir : Word) : BitVec 6 := ir.extractLsb' 0 6

/-- `off9 = ir[8:0]`. -/
def fieldOff9 (ir : Word) : BitVec 9 := ir.extractLsb' 0 9

/-- `off11 = ir[10:0]`. -/
def fieldOff11 (ir : Word) : BitVec 11 := ir.extractLsb' 0 11

/-- `vect8 = ir[7:0]`. -/
def fieldVect8 (ir : Word) : Byte := ir.extractLsb' 0 8

/-! ## The decoder -/

/-- Second-level selection of TRAP by its vector (30_encoding.md R55, 43_system.md R100). -/
def decodeTrap (vect8 : Byte) : Instr :=
  if vect8 = 0x20#8 then .getc
  else if vect8 = 0x21#8 then .out
  else if vect8 = 0x22#8 then .puts
  else if vect8 = 0x23#8 then .inp
  else if vect8 = 0x24#8 then .putsp
  else if vect8 = 0x25#8 then .halt
  else .trap vect8

/-- `decode(ir)`: pure and total on 16-bit words (30_encoding.md R54, R55); `ir[5]` selects the form of ADD and AND,
`ir[11]` JSR or JSRR, `ir[7:0]` the trap service. -/
def decode (ir : Word) : Instr :=
  match opcodeMap (fieldOpcode ir) with
  | .br => .br (ir.getLsbD 11) (ir.getLsbD 10) (ir.getLsbD 9) (fieldOff9 ir)
  | .add =>
    if ir.getLsbD 5 then .addImm (fieldA ir) (fieldB ir) (fieldImm5 ir)
    else .addReg (fieldA ir) (fieldB ir) (fieldSr2 ir)
  | .ld => .ld (fieldA ir) (fieldOff9 ir)
  | .st => .st (fieldA ir) (fieldOff9 ir)
  | .jsr => if ir.getLsbD 11 then .jsr (fieldOff11 ir) else .jsrr (fieldB ir)
  | .and =>
    if ir.getLsbD 5 then .andImm (fieldA ir) (fieldB ir) (fieldImm5 ir)
    else .andReg (fieldA ir) (fieldB ir) (fieldSr2 ir)
  | .ldr => .ldr (fieldA ir) (fieldB ir) (fieldOff6 ir)
  | .str => .str (fieldA ir) (fieldB ir) (fieldOff6 ir)
  | .rti => .rti
  | .not => .not (fieldA ir) (fieldB ir)
  | .ldi => .ldi (fieldA ir) (fieldOff9 ir)
  | .sti => .sti (fieldA ir) (fieldOff9 ir)
  | .jmp => .jmp (fieldB ir)
  | .invalid => .invalid
  | .lea => .lea (fieldA ir) (fieldOff9 ir)
  | .trap => decodeTrap (fieldVect8 ir)

/-- The decoder as the host asks it: an instruction is one whole word, so every word of at most 16 bits decodes and
nothing else is an instruction word (30_encoding.md R50). -/
def decodeTableWord (nbits w : Nat) : Option Instr :=
  if nbits ≤ 16 ∧ w < 2 ^ 16 then some (decode (BitVec.ofNat 16 w)) else none

/-! ## The encoder -/

/-- Format RO: opcode, register, 9-bit offset (30_encoding.md R52). -/
def encodeRegOff9 (o : Opcode) (a : Reg) (off9 : BitVec 9) : Word := opcodeCode o ++ a ++ off9

/-- Format RRO: opcode, two registers, 6-bit offset (30_encoding.md R52). -/
def encodeRegRegOff6 (o : Opcode) (a b : Reg) (off6 : BitVec 6) : Word := opcodeCode o ++ a ++ b ++ off6

/-- Format RRR: bit 5 is 0, bits 4:3 ignored and written 0 (30_encoding.md R52, R60). -/
def encodeRegRegReg (o : Opcode) (a b sr2 : Reg) : Word := opcodeCode o ++ a ++ b ++ 0b0#1 ++ 0b00#2 ++ sr2

/-- Format RRI: bit 5 is 1 (30_encoding.md R52). -/
def encodeRegRegImm5 (o : Opcode) (a b : Reg) (imm5 : BitVec 5) : Word := opcodeCode o ++ a ++ b ++ 0b1#1 ++ imm5

/-- Format T: bits 11:8 ignored and written 0 (30_encoding.md R52, R60). -/
def encodeTrap (vect8 : Byte) : Word := opcodeCode .trap ++ 0b0000#4 ++ vect8

/-- The word of an instruction. Ignored bits are written 0, but NOT's low six bits are written 1, as 30_encoding.md R60
assembles (notes/assumptions 14). -/
def encode : Instr → Word
  | .br n z p off9 => opcodeCode .br ++ BitVec.ofBool n ++ BitVec.ofBool z ++ BitVec.ofBool p ++ off9
  | .addReg a b sr2 => encodeRegRegReg .add a b sr2
  | .addImm a b imm5 => encodeRegRegImm5 .add a b imm5
  | .ld a off9 => encodeRegOff9 .ld a off9
  | .st a off9 => encodeRegOff9 .st a off9
  | .jsrr b => opcodeCode .jsr ++ 0b0#1 ++ 0b00#2 ++ b ++ 0b000000#6
  | .jsr off11 => opcodeCode .jsr ++ 0b1#1 ++ off11
  | .andReg a b sr2 => encodeRegRegReg .and a b sr2
  | .andImm a b imm5 => encodeRegRegImm5 .and a b imm5
  | .ldr a b off6 => encodeRegRegOff6 .ldr a b off6
  | .str a b off6 => encodeRegRegOff6 .str a b off6
  | .rti => opcodeCode .rti ++ 0b000000000000#12
  | .not a b => encodeRegRegOff6 .not a b 0b111111#6
  | .ldi a off9 => encodeRegOff9 .ldi a off9
  | .sti a off9 => encodeRegOff9 .sti a off9
  | .jmp b => opcodeCode .jmp ++ 0b000#3 ++ b ++ 0b000000#6
  | .invalid => opcodeCode .invalid ++ 0b000000000000#12
  | .lea a off9 => encodeRegOff9 .lea a off9
  | .trap vect8 => encodeTrap vect8
  | .getc => encodeTrap 0x20#8
  | .out => encodeTrap 0x21#8
  | .puts => encodeTrap 0x22#8
  | .inp => encodeTrap 0x23#8
  | .putsp => encodeTrap 0x24#8
  | .halt => encodeTrap 0x25#8

/-! ## The opcode table's rows -/

/-- One row of the table of 30_encoding.md R55: a word `w` is that row's instruction exactly when
`w &&& mask = pattern`. -/
structure OpcodeRow where
  name : String
  pattern : Word
  mask : Word
  deriving DecidableEq, Repr

/-- The 19 first-level rows, in the table's order (30_encoding.md R55). -/
def opcodeRows : List OpcodeRow :=
  [⟨"BR", 0x0000#16, 0xF000#16⟩,
   ⟨"ADD register", 0x1000#16, 0xF020#16⟩,
   ⟨"ADD immediate", 0x1020#16, 0xF020#16⟩,
   ⟨"LD", 0x2000#16, 0xF000#16⟩,
   ⟨"ST", 0x3000#16, 0xF000#16⟩,
   ⟨"JSRR", 0x4000#16, 0xF800#16⟩,
   ⟨"JSR", 0x4800#16, 0xF800#16⟩,
   ⟨"AND register", 0x5000#16, 0xF020#16⟩,
   ⟨"AND immediate", 0x5020#16, 0xF020#16⟩,
   ⟨"LDR", 0x6000#16, 0xF000#16⟩,
   ⟨"STR", 0x7000#16, 0xF000#16⟩,
   ⟨"RTI", 0x8000#16, 0xF000#16⟩,
   ⟨"NOT", 0x9000#16, 0xF000#16⟩,
   ⟨"LDI", 0xA000#16, 0xF000#16⟩,
   ⟨"STI", 0xB000#16, 0xF000#16⟩,
   ⟨"JMP", 0xC000#16, 0xF000#16⟩,
   ⟨"INVALID", 0xD000#16, 0xF000#16⟩,
   ⟨"LEA", 0xE000#16, 0xF000#16⟩,
   ⟨"TRAP", 0xF000#16, 0xF000#16⟩]

/-- The six rows under TRAP (30_encoding.md R55, section 6). -/
def trapRows : List OpcodeRow :=
  [⟨"GETC", 0xF020#16, 0xF0FF#16⟩,
   ⟨"OUT", 0xF021#16, 0xF0FF#16⟩,
   ⟨"PUTS", 0xF022#16, 0xF0FF#16⟩,
   ⟨"IN", 0xF023#16, 0xF0FF#16⟩,
   ⟨"PUTSP", 0xF024#16, 0xF0FF#16⟩,
   ⟨"HALT", 0xF025#16, 0xF0FF#16⟩]

/-- The opcode of an instruction (30_encoding.md R54, R55). -/
def opcodeOf : Instr → Opcode
  | .br _ _ _ _ => .br
  | .addReg _ _ _ | .addImm _ _ _ => .add
  | .ld _ _ => .ld
  | .st _ _ => .st
  | .jsrr _ | .jsr _ => .jsr
  | .andReg _ _ _ | .andImm _ _ _ => .and
  | .ldr _ _ _ => .ldr
  | .str _ _ _ => .str
  | .rti => .rti
  | .not _ _ => .not
  | .ldi _ _ => .ldi
  | .sti _ _ => .sti
  | .jmp _ => .jmp
  | .invalid => .invalid
  | .lea _ _ => .lea
  | .trap _ | .getc | .out | .puts | .inp | .putsp | .halt => .trap

/-- The table row an instruction stands for. -/
def rowName : Instr → String
  | .br _ _ _ _ => "BR"
  | .addReg _ _ _ => "ADD register"
  | .addImm _ _ _ => "ADD immediate"
  | .ld _ _ => "LD"
  | .st _ _ => "ST"
  | .jsrr _ => "JSRR"
  | .jsr _ => "JSR"
  | .andReg _ _ _ => "AND register"
  | .andImm _ _ _ => "AND immediate"
  | .ldr _ _ _ => "LDR"
  | .str _ _ _ => "STR"
  | .rti => "RTI"
  | .not _ _ => "NOT"
  | .ldi _ _ => "LDI"
  | .sti _ _ => "STI"
  | .jmp _ => "JMP"
  | .invalid => "INVALID"
  | .lea _ _ => "LEA"
  | .trap _ => "TRAP"
  | .getc => "GETC"
  | .out => "OUT"
  | .puts => "PUTS"
  | .inp => "IN"
  | .putsp => "PUTSP"
  | .halt => "HALT"

/-- The first-level row of an instruction: a trap service stands under TRAP (`sub_of`, 30_encoding.md section 6). -/
def firstLevelName : Instr → String
  | .getc | .out | .puts | .inp | .putsp | .halt => "TRAP"
  | i => rowName i

/-- The bits of its word that an instruction ignores (30_encoding.md R57). -/
def ignoredBits : Instr → Word
  | .addReg _ _ _ | .andReg _ _ _ => 0x0018#16
  | .not _ _ => 0x003F#16
  | .jmp _ => 0x0E3F#16
  | .jsrr _ => 0x063F#16
  | .trap _ | .getc | .out | .puts | .inp | .putsp | .halt => 0x0F00#16
  | .rti | .invalid => 0x0FFF#16
  | .br _ _ _ _ | .addImm _ _ _ | .ld _ _ | .st _ _ | .jsr _ | .andImm _ _ _ | .ldr _ _ _ | .str _ _ _ | .ldi _ _
  | .sti _ _ | .lea _ _ => 0x0000#16

end Sys2Proof
end

