-- ==== Sys2Proof/Machine/Operands.lean ====
section
/-!
DEFINITION. How a field of the instruction word or a byte becomes a 16-bit operand (00_scope.md R6, 30_encoding.md R53,
20_memory.md R31).
-/

namespace Sys2Proof.Machine

open Sys2Proof

/-- `sext_n(f)`: the word with the two's-complement value of the n-bit field (00_scope.md R6). The field is already the
slice, so the masking the source demands has been done (42_load_store.md R98). -/
def sext {n : Nat} (f : BitVec n) : Word := f.signExtend 16

/-- `zext_16(b)`: a byte in bits 7:0, bits 15:8 zero (00_scope.md R6). -/
def zextByte (b : Byte) : Word := b.setWidth 16

/-- Bits 7:0 of a word (20_memory.md R31). -/
def lowByte (w : Word) : Byte := w.extractLsb' 0 8

/-- Bits 15:8 of a word (20_memory.md R31). -/
def highByte (w : Word) : Byte := w.extractLsb' 8 8

end Sys2Proof.Machine
end

