-- ==== Sys2Proof/Config.lean ====
section
/-!
DEFINITION. What the spec leaves to an implementation (00_scope.md section 4). A value the spec calls OPEN is an
uninterpreted constant, so that nothing can be proved from a particular value of it; the two reset values that a
start state needs are named numbers (notes/assumptions 2 and 3).
-/

namespace Sys2Proof

/-- An integer that is not zero: `pos n` is n + 1 and `neg n` is -(n + 1). -/
inductive NonzeroInt where
  | pos (n : Nat)
  | neg (n : Nat)
  deriving DecidableEq, Repr, Inhabited

/-- The integer a `NonzeroInt` stands for. -/
def NonzeroInt.toInt : NonzeroInt → Int
  | .pos n => Int.ofNat (n + 1)
  | .neg n => Int.negSucc n

/-- `ABORT_STATUS`, OPEN: the exit status of an abort, "non-zero, unspecified" (60_exceptions.md R120, D18;
notes/assumptions 20). -/
opaque Config.abortCode : NonzeroInt

/-- `ABORT_STATUS` as an exit status. -/
def Config.abortStatus : Int := Config.abortCode.toInt

/-- `PUTSP_SKIP_ZERO_BYTE`, OPEN (43_system.md R105, D14; notes/assumptions 16). -/
opaque Config.putspSkipZeroByte : Bool

/-- `IN_PROMPT`, OPEN: the bytes trap IN emits before it reads (43_system.md R104, D15; notes/assumptions 17). -/
opaque Config.inPrompt : List Byte

/-- `HALT_NOTICE`, OPEN: the bytes trap HALT emits (43_system.md R106, D16; notes/assumptions 18). -/
opaque Config.haltNotice : List Byte

/-- `PSR_RESET` of `State.reset`. DESIGN CHOICE, unsafe: the spec leaves it open (10_state.md R19;
notes/assumptions 2); `State.resetWith` and `State.boot` take it as an argument. -/
def Config.psrReset : Word := 0x0000#16

/-- The program counter of `State.reset`, which has no image to give an origin. DESIGN CHOICE, unsafe
(10_state.md R15; notes/assumptions 3). -/
def Config.pcWithoutImage : Word := 0x0000#16

end Sys2Proof
end

