-- ==== Sys2Proof/Machine/State.lean ====
section
/-!
DEFINITION. Everything the spec gives the machine to hold, as plain data (10_state.md), the reasons a step can stop, and
the state after reset.
-/

namespace Sys2Proof.Machine

open Sys2Proof

/-- One listed memory cell: an address and the word it holds. The spec's smallest addressable unit is the 16-bit cell;
bytes are not addressable (10_state.md R20; notes/assumptions 26). -/
abbrev MemCell := Nat × Word

/-- Memory, 65536 cells of 16 bits: the listed cells in strictly rising address order, none holding 0x0000, which is what
an unlisted address holds ("default 0 for never-written cells", 10_state.md R20). -/
abbrev Memory := List MemCell

/-- A ConIn answer (10_state.md R24). -/
inductive Answer where
  /-- `Byte(b)`. -/
  | byte (b : Byte)
  /-- `None`: the read delivered no byte. -/
  | noByte
  /-- `Unavailable`: the terminal cannot be had at all. -/
  | unavailable
  deriving DecidableEq, Repr

/-- The five reasons a run of the core ends (60_exceptions.md R120). -/
inductive TermReason where
  | halt
  | sentinel
  | invalidOpcode
  | rtiUnimplemented
  | terminalUnavailable
  deriving DecidableEq, Repr

/-- The run state: two macro-states (10_state.md R22). -/
inductive RunState where
  | running
  | terminated (reason : TermReason) (status : Int)
  deriving DecidableEq, Repr

/-- One entry of the diagnostic channel: which fatal condition was reported; its text is not given
(60_exceptions.md R137, 43_system.md R111; notes/assumptions 19). -/
inductive Diagnostic where
  | invalidOpcode (code : BitVec 4)
  | rtiUnimplemented
  | terminalUnavailable
  deriving DecidableEq, Repr

/-- What an instruction that has not yet finished still has to do once its character is there (60_exceptions.md R135;
notes/assumptions 5 and 6). DESIGN CHOICE: the model's own form of the wait. -/
inductive Pending where
  /-- The data read of LD, LDI or LDR into register `a`. -/
  | load (a : Reg)
  /-- The pointer read of LDI. -/
  | loadPointer (a : Reg)
  /-- The pointer read of STI. -/
  | storePointer (a : Reg)
  /-- The read of GETC. -/
  | getc
  /-- The read of IN, its prompt already emitted. -/
  | inp
  /-- PUTS, about to read the word at `addr`. -/
  | puts (addr : Word)
  /-- PUTSP, about to read the word at `addr`. -/
  | putsp (addr : Word)
  deriving DecidableEq, Repr

/-- The machine's state (10_state.md). -/
structure State where
  /-- R0 to R7 (R10). -/
  regs : Vector Word 8
  /-- The program counter (R13). -/
  pc : Word
  /-- The processor status register (R16). -/
  psr : Word
  /-- Memory, the cells of the two device registers among them (R20, R21). -/
  mem : Memory
  /-- RUNNING or TERMINATED (R22). -/
  run : RunState
  /-- The ConIn answers that have arrived and are not yet consumed, the next one first (R24; notes/assumptions 4). -/
  input : List Answer
  /-- How many ConIn answers have been consumed (R28). -/
  inputPos : Nat
  /-- The bytes emitted on ConOut, the oldest first (R25). -/
  output : List Byte
  /-- The fatal conditions reported on the diagnostic channel, the oldest first (R26). -/
  diag : List Diagnostic
  /-- The instruction that has not yet finished, if there is one (notes/assumptions 5). -/
  pending : Option Pending
  deriving DecidableEq, Repr

/-- Why a step stops with a fault. -/
inductive Fault where
  /-- Raised by `step` on a TERMINATED core, which has no step (10_state.md R22, R23): the run has ended with this reason
  and this exit status. Safe: nothing happens on the hardware either (notes/assumptions 27). -/
  | terminated (reason : TermReason) (status : Int)
  deriving DecidableEq, Repr

/-- Why a step is refused. -/
inductive Refusal where
  /-- Raised by an arm of `exec` whose instruction has no meaning yet; no arm raises it. Safe. -/
  | notModelled (mnemonic : String)
  deriving DecidableEq, Repr

/-- The outcome of a step of this machine. -/
abbrev Outcome := Host.Outcome State Fault Refusal

/-- The state at reset with nothing placed, for a given `PSR_RESET` (10_state.md R12, R19 to R25, 70_reset_and_hazards.md
R141). The program counter is the image's origin, so without an image it is a value the model names
(notes/assumptions 3). -/
def State.resetWith (psrReset : Word) : State where
  regs := Vector.replicate 8 0x0000#16
  pc := Config.pcWithoutImage
  psr := psrReset
  mem := []
  run := .running
  input := []
  inputPos := 0
  output := []
  diag := []
  pending := none

/-- The machine right after reset, with no image and no input. Its `psr` is DESIGN CHOICE (notes/assumptions 2). -/
def State.reset : State := State.resetWith Config.psrReset

end Sys2Proof.Machine
end

