-- ==== Sys2Proof/Machine/Ops.lean ====
section
/-!
DEFINITION. The named operations over the state: registers, memory cells, the console, ending a run, character
acquisition and the memory bus (00_scope.md R6; 10_state.md; 20_memory.md; 60_exceptions.md R121).
-/

namespace Sys2Proof.Machine

open Sys2Proof

/-! ## Registers (10_state.md R10, R13) -/

/-- `x[r]`. -/
def getReg (s : State) (r : Reg) : Word := s.regs[r.toNat]'r.isLt

/-- `x[r] <- v`. No register is hard-wired (10_state.md R11). -/
def setReg (r : Reg) (v : Word) (s : State) : State := { s with regs := s.regs.set r.toNat v r.isLt }

/-- `pc <- t`. -/
def setPc (t : Word) (s : State) : State := { s with pc := t }

/-- The fetch step's advance: by 1 modulo 65536 (10_state.md R14). -/
def advancePc (s : State) : State := setPc (s.pc + 1#16) s

/-- Saves the incremented pc in the link register R7 (41_control.md R83, 43_system.md R100). -/
def linkR7 (s : State) : State := setReg 7#3 s.pc s

/-! ## Memory cells (10_state.md R20) -/

/-- The first address past the space of 65536 cells (00_scope.md R4). -/
def memorySize : Nat := 65536

/-- Listed from `lo` on: rising addresses inside the space, no entry 0x0000. -/
def Memory.wfFrom : Nat → Memory → Bool
  | _, [] => true
  | lo, (k, v) :: rest => decide (lo ≤ k) && decide (k < memorySize) && decide (v ≠ 0#16) && Memory.wfFrom (k + 1) rest

/-- The canonical form: equal memories are equal lists. -/
def Memory.wf (m : Memory) : Bool := Memory.wfFrom 0 m

/-- The word listed at address `a`, or 0x0000. -/
def Memory.lookup : Memory → Nat → Word
  | [], _ => 0x0000#16
  | (k, v) :: rest, a => if k = a then v else Memory.lookup rest a

/-- Puts `v` at address `a`, keeping the canonical form. -/
def Memory.insert : Memory → Nat → Word → Memory
  | [], a, v => if v = 0#16 then [] else [(a, v)]
  | (k, w) :: rest, a, v =>
    if a < k then (if v = 0#16 then (k, w) :: rest else (a, v) :: (k, w) :: rest)
    else if a = k then (if v = 0#16 then rest else (a, v) :: rest)
    else (k, w) :: Memory.insert rest a v

/-- `M[addr]`: the storage cell itself, without device decoding (00_scope.md R6). -/
def Memory.read (m : Memory) (addr : Word) : Word := Memory.lookup m addr.toNat

/-- `M[addr] <- v`. -/
def Memory.write (m : Memory) (addr v : Word) : Memory := Memory.insert m addr.toNat v

/-- `M[addr]` of a state. -/
def readCell (s : State) (addr : Word) : Word := Memory.read s.mem addr

/-- `MemWrite(addr, v)`: stores, at every address, and does nothing else (20_memory.md R34). -/
def memWrite (addr v : Word) (s : State) : State := { s with mem := Memory.write s.mem addr v }

/-! ## The console (10_state.md R24 to R26) -/

/-- `Emit(b)` (10_state.md R25). -/
def emit (b : Byte) (s : State) : State := { s with output := s.output ++ [b] }

/-- Emits each byte of a text in order. -/
def emitAll (text : List Byte) (s : State) : State := { s with output := s.output ++ text }

/-- A fatal condition prints a diagnostic, which is not part of ConOut (60_exceptions.md R137). -/
def report (d : Diagnostic) (s : State) : State := { s with diag := s.diag ++ [d] }

/-- The next ConIn answer has been consumed; `rest` are those after it (10_state.md R24). -/
def consumeAnswer (rest : List Answer) (s : State) : State := { s with input := rest, inputPos := s.inputPos + 1 }

/-- Marks the instruction as not yet finished, or as finished (60_exceptions.md R135). -/
def setPending (k : Option Pending) (s : State) : State := { s with pending := k }

/-! ## Ending the run (60_exceptions.md R120, R121) -/

/-- The exit status of each reason (60_exceptions.md R120). -/
def exitStatus : TermReason → Int
  | .halt => 0
  | .sentinel => 0
  | .invalidOpcode => 1
  | .rtiUnimplemented => Config.abortStatus
  | .terminalUnavailable => Config.abortStatus

/-- `terminate(reason, status)`: the run state becomes TERMINATED; every state change made before stays; nothing is saved
and control goes nowhere (60_exceptions.md R121, R124). The rest of the instruction is not executed: each caller does
nothing after it. -/
def terminate (reason : TermReason) (s : State) : State := { s with run := .terminated reason (exitStatus reason) }

/-! ## Character acquisition (20_memory.md R36) -/

/-- What a read comes to: a word and the state after it; the run ended; or the answer has not arrived. -/
inductive ReadResult where
  | value (v : Word) (s : State)
  | ended (s : State)
  | waiting
  deriving DecidableEq, Repr

/-- The byte an answer gives, zero if the acquisition failed; none if the terminal is unavailable (20_memory.md R36). -/
def answerByte : Answer → Option Byte
  | .byte b => some b
  | .noByte => some 0x00#8
  | .unavailable => none

/-- A carriage return becomes a line feed (20_memory.md R36). -/
def translateCr (c : Byte) : Byte := if c = 0x0D#8 then 0x0A#8 else c

/-- `Acquire()`: consumes one ConIn answer; the byte 0x03 and an unavailable terminal end the run (20_memory.md R36). -/
def acquire (s : State) : ReadResult :=
  match s.input with
  | [] => .waiting
  | r :: rest =>
    match answerByte r with
    | none => .ended (terminate .terminalUnavailable (report .terminalUnavailable (consumeAnswer rest s)))
    | some b =>
      if translateCr b = 0x03#8 then .ended (terminate .sentinel (consumeAnswer rest s))
      else .value (zextByte (translateCr b)) (consumeAnswer rest s)

/-! ## The memory bus (20_memory.md R33) -/

/-- KBSR, the keyboard status register: an ordinary cell to the bus (20_memory.md R37; notes/assumptions 7). -/
def kbsrAddr : Word := 0xFE00#16

/-- KBDR, the keyboard data register (20_memory.md R35). -/
def kbdrAddr : Word := 0xFE02#16

/-- `MemRead(addr)` (20_memory.md R33). -/
def memRead (addr : Word) (s : State) : ReadResult :=
  if addr = kbdrAddr then acquire s else .value (readCell s addr) s

/-- Goes on with `f` when the read gave a word; stays as the read left it when it ended the run; and stays with the
instruction unfinished, to be taken up as `k`, when the answer has not arrived. `s` is the state before the read. -/
def afterRead (r : ReadResult) (k : Pending) (f : Word → State → State) (s : State) : State :=
  match r with
  | .value v s1 => f v s1
  | .ended s1 => s1
  | .waiting => setPending (some k) s

/-- Reads `addr` through the bus and goes on with `f`. -/
def readThen (addr : Word) (k : Pending) (f : Word → State → State) (s : State) : State :=
  afterRead (memRead addr s) k f s

/-- Acquires a character and goes on with `f`. -/
def acquireThen (k : Pending) (f : Word → State → State) (s : State) : State := afterRead (acquire s) k f s

end Sys2Proof.Machine
end

