-- ==== Sys2Proof/Machine/Flags.lean ====
section
/-!
DEFINITION. The condition codes: `setcc`, and the test of BR (10_state.md R16, R17; 41_control.md R80).
-/

namespace Sys2Proof.Machine

open Sys2Proof

/-- N: bit 15 is 1 and the value is not 0 (10_state.md R17). -/
def isNegative (v : Word) : Bool := v.getLsbD 15 && v != 0x0000#16

/-- Z: the value is 0 (10_state.md R17). -/
def isZero (v : Word) : Bool := v == 0x0000#16

/-- P: bit 15 is 0 and the value is not 0 (10_state.md R17). -/
def isPositive (v : Word) : Bool := !v.getLsbD 15 && v != 0x0000#16

/-- The condition codes of a value as bits 2, 1, 0 of a word (10_state.md R17). -/
def conditionBits (v : Word) : Word :=
  ((BitVec.ofBool (isNegative v)).setWidth 16 <<< 2) ||| ((BitVec.ofBool (isZero v)).setWidth 16 <<< 1)
    ||| (BitVec.ofBool (isPositive v)).setWidth 16

/-- `setcc(v)`: clears the previous three bits and ORs in the new ones; bits 15:3 stay (10_state.md R17). -/
def setcc (v : Word) (s : State) : State := { s with psr := (s.psr &&& 0xFFF8#16) ||| conditionBits v }

/-- The N flag, bit 2 of `psr` (10_state.md R16). -/
def flagN (s : State) : Bool := s.psr.getLsbD 2

/-- The Z flag, bit 1 of `psr`. -/
def flagZ (s : State) : Bool := s.psr.getLsbD 1

/-- The P flag, bit 0 of `psr`. -/
def flagP (s : State) : Bool := s.psr.getLsbD 0

/-- BR's condition: some position has both the enable bit and the flag set (41_control.md R80). -/
def branchTaken (n z p : Bool) (s : State) : Bool := (n && flagN s) || (z && flagZ s) || (p && flagP s)

/-- Writes a result to its register and sets the condition codes from it: the common end of every instruction that
calls `setcc` (10_state.md R18). -/
def writeResult (a : Reg) (v : Word) (s : State) : State := setcc v (setReg a v s)

end Sys2Proof.Machine
end

