-- ==== Sys2Proof/Machine/Alu.lean ====
section
/-!
DEFINITION. ADD, AND, NOT (40_alu.md). Sums wrap modulo 65536 and record nothing but N, Z, P (R75).
-/

namespace Sys2Proof.Machine

open Sys2Proof

/-- ADD, register form (40_alu.md R70). -/
def execAddReg (a b sr2 : Reg) (s : State) : Outcome := .next (writeResult a (getReg s b + getReg s sr2) s)

/-- ADD, immediate form (40_alu.md R71). -/
def execAddImm (a b : Reg) (imm5 : BitVec 5) (s : State) : Outcome := .next (writeResult a (getReg s b + sext imm5) s)

/-- AND, register form (40_alu.md R72). -/
def execAndReg (a b sr2 : Reg) (s : State) : Outcome := .next (writeResult a (getReg s b &&& getReg s sr2) s)

/-- AND, immediate form: the immediate is extended before the and (40_alu.md R73). -/
def execAndImm (a b : Reg) (imm5 : BitVec 5) (s : State) : Outcome := .next (writeResult a (getReg s b &&& sext imm5) s)

/-- NOT (40_alu.md R74). -/
def execNot (a b : Reg) (s : State) : Outcome := .next (writeResult a (~~~(getReg s b)) s)

end Sys2Proof.Machine
end

