-- ==== Sys2Proof/Machine/Control.lean ====
section
/-!
DEFINITION. BR, JMP, JSR, JSRR (41_control.md). In every meaning `s.pc` is the incremented pc (10_state.md R13).
-/

namespace Sys2Proof.Machine

open Sys2Proof

/-- BR (41_control.md R80, R81). -/
def execBr (n z p : Bool) (off9 : BitVec 9) (s : State) : Outcome :=
  .next (if branchTaken n z p s then setPc (s.pc + sext off9) s else s)

/-- JMP (41_control.md R82). -/
def execJmp (b : Reg) (s : State) : Outcome := .next (setPc (getReg s b) s)

/-- JSR: the link, then the target relative to the incremented pc (41_control.md R83). -/
def execJsr (off11 : BitVec 11) (s : State) : Outcome := .next (setPc (s.pc + sext off11) (linkR7 s))

/-- JSRR: R7 is written first and the base register read after it, so `JSRR R7` falls through (41_control.md R84;
notes/assumptions 11). -/
def execJsrr (b : Reg) (s : State) : Outcome := .next (setPc (getReg (linkR7 s) b) (linkR7 s))

end Sys2Proof.Machine
end

