-- ==== Sys2Proof/Machine/LoadStore.lean ====
section
/-!
DEFINITION. LD, LDI, LDR, LEA, ST, STI, STR (42_load_store.md). Every read goes through the bus (20_memory.md R39), so an
address of 0xFE02 is a keyboard read.
-/

namespace Sys2Proof.Machine

open Sys2Proof

/-- `pc + sext_9(off9)`, the pc-relative address (42_load_store.md R97). -/
def pcRelative (off9 : BitVec 9) (s : State) : Word := s.pc + sext off9

/-- `x[b] + sext_6(off6)`, the base + offset address (42_load_store.md R97). -/
def baseOffset (b : Reg) (off6 : BitVec 6) (s : State) : Word := getReg s b + sext off6

/-- What LDI does with its pointer: the second access (42_load_store.md R91). -/
def loadThroughPointer (a : Reg) (ea : Word) (s : State) : State := readThen ea (.load a) (writeResult a) s

/-- What STI does with its pointer (42_load_store.md R95). -/
def storeThroughPointer (a : Reg) (ea : Word) (s : State) : State := memWrite ea (getReg s a) s

/-- LD (42_load_store.md R90). -/
def execLd (a : Reg) (off9 : BitVec 9) (s : State) : Outcome :=
  .next (readThen (pcRelative off9 s) (.load a) (writeResult a) s)

/-- LDI (42_load_store.md R91). -/
def execLdi (a : Reg) (off9 : BitVec 9) (s : State) : Outcome :=
  .next (readThen (pcRelative off9 s) (.loadPointer a) (loadThroughPointer a) s)

/-- LDR (42_load_store.md R92). -/
def execLdr (a b : Reg) (off6 : BitVec 6) (s : State) : Outcome :=
  .next (readThen (baseOffset b off6 s) (.load a) (writeResult a) s)

/-- LEA: no memory access (42_load_store.md R93). -/
def execLea (a : Reg) (off9 : BitVec 9) (s : State) : Outcome := .next (writeResult a (pcRelative off9 s) s)

/-- ST (42_load_store.md R94). -/
def execSt (a : Reg) (off9 : BitVec 9) (s : State) : Outcome := .next (memWrite (pcRelative off9 s) (getReg s a) s)

/-- STI (42_load_store.md R95). -/
def execSti (a : Reg) (off9 : BitVec 9) (s : State) : Outcome :=
  .next (readThen (pcRelative off9 s) (.storePointer a) (storeThroughPointer a) s)

/-- STR (42_load_store.md R96). -/
def execStr (a b : Reg) (off6 : BitVec 6) (s : State) : Outcome :=
  .next (memWrite (baseOffset b off6 s) (getReg s a) s)

end Sys2Proof.Machine
end

