-- ==== Sys2Proof/Machine/System.lean ====
section
/-!
DEFINITION. RTI and the INVALID code, which end the run (43_system.md R110, R111; 60_exceptions.md R122).
-/

namespace Sys2Proof.Machine

open Sys2Proof

/-- RTI: not supported, an abort; it restores nothing and returns from nothing (43_system.md R110). -/
def execRti (s : State) : Outcome := .next (terminate .rtiUnimplemented (report .rtiUnimplemented s))

/-- INVALID: the offending opcode is reported and the run ends with status 1 (43_system.md R111). -/
def execInvalid (s : State) : Outcome :=
  .next (terminate .invalidOpcode (report (.invalidOpcode (opcodeCode .invalid)) s))

end Sys2Proof.Machine
end

