-- ==== Sys2Proof/Machine/Trap.lean ====
section
/-!
DEFINITION. TRAP and its six services (43_system.md R100 to R107). Each writes R7 before anything else and performs its
service inside the instruction; none writes `pc`.
-/

namespace Sys2Proof.Machine

open Sys2Proof

/-- TRAP with a vector that names no service: only R7 is written (43_system.md R107). -/
def execTrap (_vect8 : Byte) (s : State) : Outcome := .next (linkR7 s)

/-- GETC once its character is there (43_system.md R101). -/
def finishGetc (c : Word) (s : State) : State := writeResult 0#3 c s

/-- GETC (43_system.md R101). -/
def execGetc (s : State) : Outcome := .next (acquireThen .getc finishGetc (linkR7 s))

/-- OUT (43_system.md R102). -/
def execOut (s : State) : Outcome := .next (emit (lowByte (getReg (linkR7 s) 0#3)) (linkR7 s))

/-- IN once its character is there: the echo of the translated character, then as GETC (43_system.md R104;
notes/assumptions 17). -/
def finishIn (c : Word) (s : State) : State := writeResult 0#3 c (emit (lowByte c) s)

/-- IN (43_system.md R104). -/
def execIn (s : State) : Outcome := .next (acquireThen .inp finishIn (emitAll Config.inPrompt (linkR7 s)))

/-- How many words of a string from `addr` on can be read before a read has to wait: the cells up to 0xFE02, and a whole
turn of the address space for every answer that is there. A bound that is always enough (Laws/Strings.lean,
`stringFrom_read`); DESIGN CHOICE, the loop itself has none (43_system.md R103; notes/assumptions 6). -/
def stringFuel (addr : Word) (s : State) : Nat := s.input.length * memorySize + (kbdrAddr - addr).toNat + 1

/-- The loop of PUTS and PUTSP: read a word, stop at 0x0000, else put its characters and go on at the next address,
wrapping (43_system.md R103, R105). `k` is how the string is taken up again at an address. -/
def stringLoop (k : Word → Pending) (put : Word → State → State) : Nat → Word → State → State
  | 0, addr, s => setPending (some (k addr)) s
  | n + 1, addr, s =>
    readThen addr (k addr)
      (fun w s1 => if w = 0x0000#16 then s1 else stringLoop k put n (addr + 1#16) (put w s1)) s

/-- The string from an address on, to its end, to the end of the run, or to a read that has to wait. -/
def stringFrom (k : Word → Pending) (put : Word → State → State) (addr : Word) (s : State) : State :=
  stringLoop k put (stringFuel addr s) addr s

/-- PUTS emits the low byte of each word (43_system.md R103; notes/assumptions 15). -/
def putWord (w : Word) (s : State) : State := emit (lowByte w) s

/-- The bytes PUTSP emits for one byte of a word: none if it is zero and `PUTSP_SKIP_ZERO_BYTE` (43_system.md R105). -/
def packedByte (b : Byte) : List Byte := if Config.putspSkipZeroByte && b == 0x00#8 then [] else [b]

/-- PUTSP emits the low byte, then the high byte (43_system.md R105; notes/assumptions 16). -/
def putPackedWord (w : Word) (s : State) : State := emitAll (packedByte (lowByte w) ++ packedByte (highByte w)) s

/-- PUTS from an address on (43_system.md R103). -/
def putsFrom (addr : Word) (s : State) : State := stringFrom .puts putWord addr s

/-- PUTSP from an address on (43_system.md R105). -/
def putspFrom (addr : Word) (s : State) : State := stringFrom .putsp putPackedWord addr s

/-- PUTS (43_system.md R103). -/
def execPuts (s : State) : Outcome := .next (putsFrom (getReg (linkR7 s) 0#3) (linkR7 s))

/-- PUTSP (43_system.md R105). -/
def execPutsp (s : State) : Outcome := .next (putspFrom (getReg (linkR7 s) 0#3) (linkR7 s))

/-- HALT: the notice, then the run ends (43_system.md R106). -/
def execHalt (s : State) : Outcome := .next (terminate .halt (emitAll Config.haltNotice (linkR7 s)))

end Sys2Proof.Machine
end

