-- ==== Sys2Proof/Machine/Dispatch.lean ====
section
/-!
DEFINITION. The executor: one arm per constructor, each one direct call of its meaning (10_state.md R23).
-/

namespace Sys2Proof.Machine

open Sys2Proof

/-- The execute step, on the state whose pc has been incremented (10_state.md R23). -/
def exec (i : Instr) (s : State) : Host.Outcome State Fault Refusal :=
  match i with
  | .br n z p off9 => Sys2Proof.Machine.execBr n z p off9 s
  | .addReg a b sr2 => Sys2Proof.Machine.execAddReg a b sr2 s
  | .addImm a b imm5 => Sys2Proof.Machine.execAddImm a b imm5 s
  | .ld a off9 => Sys2Proof.Machine.execLd a off9 s
  | .st a off9 => Sys2Proof.Machine.execSt a off9 s
  | .jsrr b => Sys2Proof.Machine.execJsrr b s
  | .jsr off11 => Sys2Proof.Machine.execJsr off11 s
  | .andReg a b sr2 => Sys2Proof.Machine.execAndReg a b sr2 s
  | .andImm a b imm5 => Sys2Proof.Machine.execAndImm a b imm5 s
  | .ldr a b off6 => Sys2Proof.Machine.execLdr a b off6 s
  | .str a b off6 => Sys2Proof.Machine.execStr a b off6 s
  | .rti => Sys2Proof.Machine.execRti s
  | .not a b => Sys2Proof.Machine.execNot a b s
  | .ldi a off9 => Sys2Proof.Machine.execLdi a off9 s
  | .sti a off9 => Sys2Proof.Machine.execSti a off9 s
  | .jmp b => Sys2Proof.Machine.execJmp b s
  | .invalid => Sys2Proof.Machine.execInvalid s
  | .lea a off9 => Sys2Proof.Machine.execLea a off9 s
  | .trap vect8 => Sys2Proof.Machine.execTrap vect8 s
  | .getc => Sys2Proof.Machine.execGetc s
  | .out => Sys2Proof.Machine.execOut s
  | .puts => Sys2Proof.Machine.execPuts s
  | .inp => Sys2Proof.Machine.execIn s
  | .putsp => Sys2Proof.Machine.execPutsp s
  | .halt => Sys2Proof.Machine.execHalt s

end Sys2Proof.Machine
end

