-- ==== Sys2Proof/Machine/Fetch.lean ====
section
/-!
DEFINITION. The fetch, and where a word is placed so that the next fetch gets it (10_state.md R23).
-/

namespace Sys2Proof.Machine

open Sys2Proof

/-- `ir <- MemRead(pc)`: through the bus, so a pc of 0xFE02 reads the keyboard (10_state.md R23; notes/assumptions 8). -/
def fetch (s : State) : ReadResult := memRead s.pc s

/-- A running core between instructions, about to fetch from a storage cell: a terminated run is taken back to RUNNING,
an unfinished instruction is dropped, and a pc of 0xFE02, whose fetch would ask the keyboard, is moved on by one
(notes/assumptions 29). Every other field stays. -/
def readyToFetch (s : State) : State :=
  { s with run := .running, pending := none, pc := if s.pc = kbdrAddr then s.pc + 1#16 else s.pc }

/-- Places a word in the cell the next fetch reads. -/
def placeAtPc (w : Word) (s : State) : State := memWrite s.pc w s

end Sys2Proof.Machine
end

