-- ==== Sys2Proof/Machine/Resume.lean ====
section
/-!
DEFINITION. Going on with an instruction that has not yet finished (60_exceptions.md R135; notes/assumptions 5 and 6).
-/

namespace Sys2Proof.Machine

open Sys2Proof

/-- What is left of the instruction, from the character read it waits for or the string address it has reached. The
state's own mark has been taken off; if the answer is still not there, the mark is put back. -/
def resumePending : Pending → State → State
  | .load a, s => acquireThen (.load a) (writeResult a) s
  | .loadPointer a, s => acquireThen (.loadPointer a) (loadThroughPointer a) s
  | .storePointer a, s => acquireThen (.storePointer a) (storeThroughPointer a) s
  | .getc, s => acquireThen .getc finishGetc s
  | .inp, s => acquireThen .inp finishIn s
  | .puts addr, s => putsFrom addr s
  | .putsp addr, s => putspFrom addr s

/-- Takes the mark off and goes on. -/
def resume (k : Pending) (s : State) : Outcome := .next (resumePending k (setPending none s))

end Sys2Proof.Machine
end

