-- ==== Sys2Proof/Machine/Step.lean ====
section
/-!
DEFINITION. The instruction cycle (10_state.md R23).
-/

namespace Sys2Proof.Machine

open Sys2Proof

/-- One step. A terminated core has none (10_state.md R22, R23). A running one finishes the instruction it has not yet
finished, if there is one; otherwise it fetches, decodes, advances the pc and executes. A fetch that ends the run, or
whose answer has not arrived, executes nothing and leaves the pc (R23). -/
def step (s : State) : Host.Outcome State Fault Refusal :=
  match s.run with
  | .terminated reason status => .fault (.terminated reason status)
  | .running =>
    match s.pending with
    | some k => resume k s
    | none =>
      match fetch s with
      | .value ir s1 => exec (decode ir) (advancePc s1)
      | .ended s1 => .next s1
      | .waiting => .next s

/-- `s` with the instruction word `w` where the next fetch reads, so that the next step runs exactly it
(notes/assumptions 22 and 29). An instruction is one word (30_encoding.md R50): `nbits` adds nothing. -/
def State.withFetchWord (s : State) (_nbits w : Nat) : State := placeAtPc (BitVec.ofNat 16 w) (readyToFetch s)

end Sys2Proof.Machine
end

