-- ==== Sys2Proof/Machine/Boot.lean ====
section
/-!
DEFINITION. What the surroundings do: present an image before reset is released (10_state.md R27, 70_reset_and_hazards.md
R140, R141, R145) and answer a ConIn request while the core runs (R147). None of it is a step of the core.
-/

namespace Sys2Proof.Machine

open Sys2Proof

/-- A program image: the origin and the words placed from it on (70_reset_and_hazards.md R145). -/
structure Image where
  origin : Word
  words : List Word
  deriving DecidableEq, Repr

/-- The premise of every run: the image fits, `origin + len <= 65536` (70_reset_and_hazards.md R145;
notes/assumptions 22). -/
def Image.fits (img : Image) : Bool := decide (img.origin.toNat + img.words.length ≤ memorySize)

/-- Pairs of file bytes as big-endian words; none if a byte is left over (70_reset_and_hazards.md R145). -/
def wordsOfBytes : List Byte → Option (List Word)
  | [] => some []
  | [_] => none
  | hi :: lo :: rest => (wordsOfBytes rest).map ((hi ++ lo) :: ·)

/-- The image a file of bytes holds; none for a file with no origin word, of odd length, or whose words do not fit
(70_reset_and_hazards.md R145, R146; notes/assumptions 22). -/
def Image.ofBytes (file : List Byte) : Option Image :=
  match wordsOfBytes file with
  | some (origin :: words) => if Image.fits ⟨origin, words⟩ then some ⟨origin, words⟩ else none
  | some [] => none
  | none => none

/-- Consecutive words from an address on. -/
def Memory.load (m : Memory) : Word → List Word → Memory
  | _, [] => m
  | addr, w :: rest => Memory.load (Memory.write m addr w) (addr + 1#16) rest

/-- The state when execution begins: reset, then the image placed and pc at its origin, with the run's `PSR_RESET` and
`INPUT` (70_reset_and_hazards.md R141). -/
def State.boot (psrReset : Word) (input : List Answer) (img : Image) : State :=
  { State.resetWith psrReset with pc := img.origin, mem := Memory.load [] img.origin img.words, input := input }

/-- The far side of ConIn answers a request (10_state.md R24, 70_reset_and_hazards.md R147). -/
def State.deliver (s : State) (r : Answer) : State := { s with input := s.input ++ [r] }

end Sys2Proof.Machine
end

