-- ==== Sys2Proof/Safety.lean ====
section
/-!
DEFINITION. The words claims are made in: what a state reports, what an instruction keeps, what it means for a result, a
store or a character read to be an instruction's whole effect, the machine's invariant, and a safe run. They are written
from the spec's sentences, not from the meanings, so that a claim compares the two.
-/

namespace Sys2Proof.Machine

open Sys2Proof

/-! ## Addresses and flags -/

/-- The address `offset` words from `base`, modulo 65536 (20_memory.md R47). -/
def wordsFrom (base : Word) (offset : Int) : Word := BitVec.ofInt 16 (Int.ofNat base.toNat + offset)

/-- N, Z, P of `t` say that `v`, read as two's complement, is negative, zero, positive (10_state.md R17). -/
def FlagsReport (v : Word) (t : State) : Prop :=
  flagN t = decide (v.toInt < 0) ∧ flagZ t = decide (v.toInt = 0) ∧ flagP t = decide (0 < v.toInt)

/-- Bits 15:3 of `psr` are as they were (10_state.md R16). -/
def KeepsHighPsr (s t : State) : Prop := ∀ k, 3 ≤ k → t.psr.getLsbD k = s.psr.getLsbD k

/-- Exactly one of N, Z, P is set (10_state.md R17). -/
def OneFlag (s : State) : Prop :=
  (flagN s = true ∧ flagZ s = false ∧ flagP s = false) ∨ (flagN s = false ∧ flagZ s = true ∧ flagP s = false)
    ∨ (flagN s = false ∧ flagZ s = false ∧ flagP s = true)

/-! ## What is kept -/

/-- Every general register outside `ds` is as it was. -/
def KeepsRegsExcept (ds : List Reg) (s t : State) : Prop := ∀ r, r ∉ ds → getReg t r = getReg s r

/-- Every memory cell reads as it did, the cells of the device registers among them. -/
def KeepsMemory (s t : State) : Prop := ∀ a, readCell t a = readCell s a

/-- No input answer was consumed. -/
def KeepsInput (s t : State) : Prop := t.input = s.input ∧ t.inputPos = s.inputPos

/-- One input answer was consumed, and `rest` are the ones after it. -/
def ConsumesOne (rest : List Answer) (s t : State) : Prop := t.input = rest ∧ t.inputPos = s.inputPos + 1

/-- Nothing was emitted or reported. -/
def KeepsOutput (s t : State) : Prop := t.output = s.output ∧ t.diag = s.diag

/-- The run state and the mark of an unfinished instruction are as they were. -/
def KeepsControl (s t : State) : Prop := t.run = s.run ∧ t.pending = s.pending

/-- All but the program counter and the registers in `ds` is kept. -/
def KeepsAllButPcAndRegs (ds : List Reg) (s t : State) : Prop :=
  KeepsRegsExcept ds s t ∧ t.psr = s.psr ∧ KeepsMemory s t ∧ KeepsInput s t ∧ KeepsOutput s t ∧ KeepsControl s t

/-! ## Whole effects -/

/-- The value `v` is in register `a` and reported by the flags; every other register, `psr` bits 15:3, the incremented
pc and all of memory are kept. -/
def ResultIn (a : Reg) (v : Word) (s t : State) : Prop :=
  getReg t a = v ∧ KeepsRegsExcept [a] s t ∧ FlagsReport v t ∧ KeepsHighPsr s t ∧ t.pc = s.pc ∧ KeepsMemory s t

/-- `ResultIn` and nothing else at all: no input, no output, the run goes on. -/
def OnlyResultIn (a : Reg) (v : Word) (s t : State) : Prop :=
  ResultIn a v s t ∧ KeepsInput s t ∧ KeepsOutput s t ∧ KeepsControl s t

/-- The cell at `ea` holds `v`; every other cell, every register, all of `psr`, the incremented pc and the output are
kept, and the run goes on. -/
def Stored (ea v : Word) (s t : State) : Prop :=
  readCell t ea = v ∧ (∀ a, a ≠ ea → readCell t a = readCell s a) ∧ KeepsRegsExcept [] s t ∧ t.psr = s.psr ∧ t.pc = s.pc
    ∧ KeepsOutput s t ∧ KeepsControl s t

/-- The run has ended with this reason and status; `psr`, the incremented pc, all of memory and the registers outside
`ds` are kept, and no instruction is left unfinished that was not before. The incremented pc is the spec's decision D11,
which claims about a run should not rest on (60_exceptions.md R121; notes/assumptions 13). -/
def EndedWith (ds : List Reg) (reason : TermReason) (status : Int) (s t : State) : Prop :=
  t.run = .terminated reason status ∧ KeepsRegsExcept ds s t ∧ t.psr = s.psr ∧ t.pc = s.pc ∧ KeepsMemory s t
    ∧ t.pending = s.pending

/-! ## Character reads (20_memory.md R36) -/

/-- The answer `r` gives the character `c` and the run goes on: a byte other than 0x03, a carriage return read as a line
feed; or 0 when no byte was delivered. -/
def Received (r : Answer) (c : Word) : Prop :=
  (∃ b : Byte, r = .byte b ∧ b ≠ 0x03#8 ∧ c = BitVec.ofNat 16 (if b = 0x0D#8 then 10 else b.toNat))
    ∨ (r = .noByte ∧ c = 0x0000#16)

/-- The outcome `o` of an instruction that, in the state `u`, asks for one character: with an answer that gives `c`, what
`done c rest` says; with 0x03 or an unavailable terminal, the run ends and only an answer has been consumed; with no
answer yet, `u` with the instruction unfinished as `k`. The wait is notes/assumptions 5; pc and the device cells after the
run's end are D11 and D7 (13, 9), the diagnostic D17 (19), the unavailable terminal D20 (21), zero for no byte D8 (10). -/
def ReadsCharacter (k : Pending) (done : Word → List Answer → State → Prop) (u : State) (o : Outcome) : Prop :=
  (∀ r rest c, u.input = r :: rest → Received r c → ∃ t, o = .next t ∧ done c rest t)
    ∧ (∀ rest, u.input = .byte 0x03#8 :: rest →
        ∃ t, o = .next t ∧ EndedWith [] .sentinel 0 u t ∧ ConsumesOne rest u t ∧ KeepsOutput u t)
    ∧ (∀ rest, u.input = .unavailable :: rest →
        ∃ t, o = .next t ∧ EndedWith [] .terminalUnavailable Config.abortStatus u t ∧ ConsumesOne rest u t
          ∧ t.output = u.output ∧ t.diag = u.diag ++ [.terminalUnavailable])
    ∧ (u.input = [] → o = .next { u with pending := some k })

/-- The outcome of loading register `a` from `ea`: the stored word, or at 0xFE02 the keyboard's next character. -/
def LoadsFrom (a : Reg) (ea : Word) (s : State) (o : Outcome) : Prop :=
  (ea ≠ 0xFE02#16 → ∃ t, o = .next t ∧ OnlyResultIn a (readCell s ea) s t)
    ∧ (ea = 0xFE02#16 →
        ReadsCharacter (.load a)
          (fun c rest t => ResultIn a c s t ∧ ConsumesOne rest s t ∧ KeepsOutput s t ∧ KeepsControl s t) s o)

/-! ## Strings (43_system.md R103, R105) -/

/-- Storage cells from `addr` on hold the non-zero words `ws`, none of them at 0xFE02, wrapping at the top. -/
def HoldsWords (s : State) : Word → List Word → Prop
  | _, [] => True
  | addr, w :: ws => addr ≠ 0xFE02#16 ∧ w ≠ 0x0000#16 ∧ readCell s addr = w ∧ HoldsWords s (addr + 1#16) ws

/-- `HoldsWords`, and then a storage cell that holds the zero word. -/
def HoldsString (s : State) (addr : Word) (ws : List Word) : Prop :=
  HoldsWords s addr ws ∧ addr + BitVec.ofNat 16 ws.length ≠ 0xFE02#16
    ∧ readCell s (addr + BitVec.ofNat 16 ws.length) = 0x0000#16

/-- Bits 7:0 of a word, as a byte. -/
def lowBits (w : Word) : Byte := BitVec.ofNat 8 w.toNat

/-- Bits 15:8 of a word, as a byte. -/
def highBits (w : Word) : Byte := BitVec.ofNat 8 (w.toNat / 256)

/-- What PUTSP emits for one word: low byte, then high byte, a zero byte left out if `PUTSP_SKIP_ZERO_BYTE`. -/
def packedBytes (w : Word) : List Byte :=
  [lowBits w, highBits w].filter fun b => !(Config.putspSkipZeroByte && b == 0x00#8)

/-- The whole effect of a string service that emits `text`: R7 holds the incremented pc and nothing else changes. -/
def OnlyEmitted (text : List Byte) (s t : State) : Prop :=
  t.output = s.output ++ text ∧ getReg t 7#3 = s.pc ∧ KeepsRegsExcept [7#3] s t ∧ t.psr = s.psr ∧ t.pc = s.pc
    ∧ KeepsMemory s t ∧ KeepsInput s t ∧ t.diag = s.diag ∧ KeepsControl s t

/-! ## Kinds of instructions -/

/-- The register whose new value the instruction sets the condition codes from, for the instructions that call `setcc`
(10_state.md R18). -/
def flagSource : Instr → Option Reg
  | .addReg a _ _ | .addImm a _ _ | .andReg a _ _ | .andImm a _ _ | .not a _ | .ld a _ | .ldi a _ | .ldr a _ _
  | .lea a _ => some a
  | .getc | .inp => some 0#3
  | .br _ _ _ _ | .st _ _ | .jsrr _ | .jsr _ | .str _ _ _ | .rti | .sti _ _ | .jmp _ | .invalid | .trap _ | .out | .puts
  | .putsp | .halt => none

/-- The instructions that may ask for a character (60_exceptions.md R120). -/
def mayAcquire : Instr → Bool
  | .ld _ _ | .ldi _ _ | .ldr _ _ _ | .sti _ _ | .getc | .inp | .puts | .putsp => true
  | .br _ _ _ _ | .addReg _ _ _ | .addImm _ _ _ | .st _ _ | .jsrr _ | .jsr _ | .andReg _ _ _ | .andImm _ _ _ | .str _ _ _
  | .rti | .not _ _ | .jmp _ | .invalid | .lea _ _ | .trap _ | .out | .halt => false

/-- The instructions that store (42_load_store.md R94 to R96). -/
def stores : Instr → Bool
  | .st _ _ | .sti _ _ | .str _ _ _ => true
  | .br _ _ _ _ | .addReg _ _ _ | .addImm _ _ _ | .ld _ _ | .jsrr _ | .jsr _ | .andReg _ _ _ | .andImm _ _ _ | .ldr _ _ _
  | .rti | .not _ _ | .ldi _ _ | .jmp _ | .invalid | .lea _ _ | .trap _ | .getc | .out | .puts | .inp | .putsp
  | .halt => false

/-- The instructions that emit bytes (10_state.md R25). -/
def emits : Instr → Bool
  | .out | .puts | .inp | .putsp | .halt => true
  | .br _ _ _ _ | .addReg _ _ _ | .addImm _ _ _ | .ld _ _ | .st _ _ | .jsrr _ | .jsr _ | .andReg _ _ _ | .andImm _ _ _
  | .ldr _ _ _ | .str _ _ _ | .rti | .not _ _ | .ldi _ _ | .sti _ _ | .jmp _ | .invalid | .lea _ _ | .trap _
  | .getc => false

/-- The unfinished instruction waits at a character read. -/
def waitsForCharacter : Pending → Prop
  | .load _ | .loadPointer _ | .storePointer _ | .getc | .inp => True
  | .puts addr | .putsp addr => addr = 0xFE02#16

/-! ## What the next step does -/

/-- The next step executes `i` from its start: no instruction is unfinished, and the word at pc decodes to `i`, or at 0xFE02
the next character does (10_state.md R23, 20_memory.md R39). -/
def Executes (i : Instr) (s : State) : Prop :=
  s.pending = none
    ∧ ((s.pc ≠ 0xFE02#16 ∧ decode (readCell s s.pc) = i)
      ∨ (s.pc = 0xFE02#16 ∧ ∃ r rest c, s.input = r :: rest ∧ Received r c ∧ decode c = i))

/-- The next step may ask for a character: it goes on with an unfinished instruction, it fetches at 0xFE02, or it executes
an instruction that may ask for one (60_exceptions.md R120, R123). -/
def MayAsk (s : State) : Prop :=
  s.pending ≠ none ∨ (s.pending = none ∧ s.pc = 0xFE02#16) ∨ ∃ i, Executes i s ∧ mayAcquire i = true

/-- How a string service that emits `bytes` for each word goes on from any address, one word at a time: it ends at a zero
word; past another word it is the service unfinished at the next address; and at 0xFE02 the word is the character
(43_system.md R103, R105; 20_memory.md R39). The mark `k` of the service is notes/assumptions 5. -/
def StringGoesOn (k : Word → Pending) (bytes : Word → List Byte) (u : State) : Prop :=
  (∀ addr, addr ≠ 0xFE02#16 → readCell u addr = 0x0000#16 → step { u with pending := some (k addr) } = .next u)
    ∧ (∀ addr, addr ≠ 0xFE02#16 → readCell u addr ≠ 0x0000#16 →
        step { u with pending := some (k addr) }
          = step { u with output := u.output ++ bytes (readCell u addr), pending := some (k (addr + 1#16)) })
    ∧ ReadsCharacter (k 0xFE02#16)
        (fun c rest t =>
          (c = 0x0000#16 → t = { u with input := rest, inputPos := u.inputPos + 1 })
            ∧ (c ≠ 0x0000#16 →
                step { u with output := u.output ++ bytes c, input := rest, inputPos := u.inputPos + 1, pending := some (k 0xFE03#16) }
                  = .next t))
        u (step { u with pending := some (k 0xFE02#16) })

/-! ## The machine's invariant and a safe run -/

/-- Memory has its canonical form (notes/assumptions 26); a terminated core's status is its reason's (60_exceptions.md
R120); an instruction is left unfinished only while the core is RUNNING, and only at a character read (60_exceptions.md
R135; the mark is notes/assumptions 5). -/
def State.Inv (s : State) : Prop :=
  Memory.wf s.mem = true ∧ (∀ reason status, s.run = .terminated reason status → status = exitStatus reason)
    ∧ (s.pending ≠ none → s.run = .running) ∧ (∀ k, s.pending = some k → waitsForCharacter k)

/-- A safe run: in each of `n` steps the machine goes on, or stops only because the core has TERMINATED. No instruction
faults and none is refused. -/
def SafeRun : Nat → State → Prop
  | 0, _ => True
  | n + 1, s =>
    match step s with
    | .next t => SafeRun n t
    | .fault (.terminated _ _) => s.run ≠ .running
    | .refused _ => False

end Sys2Proof.Machine
end

