-- ==== Sys2Proof/Certificates/Slice0/Obligations.lean ====
section
/-!
DEFINITION. The statements for the provers. "The incremented pc" is `s.pc` in every statement about `exec` (10_state.md R13).
A word written as `opcodeCode .add ++ …` has in bits 15:12 whatever code `OPCODE_MAP` gives the opcode.
-/

open Sys2Proof Sys2Proof.Machine

/-! ## Encoding and decoding -/

/-- No field of an instruction is lost or moved between the encoder and the decoder (30_encoding.md sections 1 to 3).
Which code is which opcode is D1 (notes/assumptions 1), where the fields lie the spec derives (notes/assumptions 28),
and what the encoder writes in ignored bits is D21 (notes/assumptions 14). -/
def Obligations.DecodeOfEncodeIsTheInstruction : Prop :=
  ∀ i : Instr, i.wf = true → decode (encode i) = i

/-- Encoding what a word decodes to gives the word back in every bit the instruction uses (30_encoding.md section 4). -/
def Obligations.EncodeOfDecodeRestoresUsedBits : Prop :=
  ∀ w : Word, encode (decode w) &&& ~~~(ignoredBits (decode w)) = w &&& ~~~(ignoredBits (decode w))

/-- Two words that differ only in ignored bits are the same instruction (30_encoding.md section 4; that the bits are
ignored is the spec's decision D12, notes/assumptions 14). -/
def Obligations.IgnoredBitsTakeNoPartInDecoding : Prop :=
  (∀ w w' : Word, w' &&& ~~~(ignoredBits (decode w)) = w &&& ~~~(ignoredBits (decode w)) → decode w' = decode w)
    ∧ (∀ a b c : Reg, ignoredBits (.addReg a b c) = 0x0018#16 ∧ ignoredBits (.andReg a b c) = 0x0018#16)
    ∧ (∀ a b : Reg, ignoredBits (.not a b) = 0x003F#16 ∧ ignoredBits (.jmp b) = 0x0E3F#16
        ∧ ignoredBits (.jsrr b) = 0x063F#16)
    ∧ ignoredBits .rti = 0x0FFF#16 ∧ ignoredBits .invalid = 0x0FFF#16
    ∧ (∀ v : Byte, ignoredBits (decodeTrap v) = 0x0F00#16)

/-- Every word matches exactly one of the 19 rows of 30_encoding.md section 3, the one its decoding stands for; a TRAP
word matches a service's row exactly when it decodes to that service; and every decoded instruction is well-formed.
The codes are notes/assumptions 1. -/
def Obligations.EveryWordMatchesExactlyItsRow : Prop :=
  ∀ w : Word,
    (∃ row ∈ opcodeRows, w &&& row.mask = row.pattern ∧ row.name = firstLevelName (decode w)
        ∧ ∀ row' ∈ opcodeRows, w &&& row'.mask = row'.pattern → row' = row)
      ∧ (∀ row ∈ trapRows, (w &&& row.mask = row.pattern ↔ rowName (decode w) = row.name))
      ∧ (decode w).wf = true

/-- The words of the spec's own worked examples decode to the instructions it writes beside them (40_alu.md sections 1
to 3, 41_control.md sections 1 to 3, 42_load_store.md sections 2 and 3, 43_system.md sections 1 and 2; opcodes and
vectors: 30_encoding.md section 3). Which code is which opcode is D1, presumed for all but 0b1101 (notes/assumptions
1), and where the fields lie the spec derives (notes/assumptions 28). -/
def Obligations.WorkedExampleWordsDecode : Prop :=
  decode 0x1042#16 = .addReg 0 1 2 ∧ decode 0x1071#16 = .addImm 0 1 0b10001#5 ∧ decode 0x5042#16 = .andReg 0 1 2
    ∧ decode 0x56E0#16 = .andImm 3 3 0#5 ∧ decode 0x907F#16 = .not 0 1 ∧ decode 0x03FD#16 = .br false false true 0x1FD#9
    ∧ decode 0xC1C0#16 = .jmp 7 ∧ decode 0x4805#16 = .jsr 5#11 ∧ decode 0x4080#16 = .jsrr 2
    ∧ decode 0x2202#16 = .ld 1 2#9 ∧ decode 0xA000#16 = .ldi 0 0#9 ∧ decode 0x6680#16 = .ldr 3 2 0#6
    ∧ decode 0xE405#16 = .lea 2 5#9 ∧ decode 0x3602#16 = .st 3 2#9 ∧ decode 0xB204#16 = .sti 1 4#9
    ∧ decode 0x7881#16 = .str 4 2 1#6 ∧ decode 0xF021#16 = .out ∧ decode 0xF025#16 = .halt
    ∧ decode 0xF0FF#16 = .trap 0xFF#8 ∧ decode 0x8000#16 = .rti ∧ decode 0xD000#16 = .invalid

/-! ## Condition codes -/

/-- 10_state.md R17: `setcc` reports the sign of its value by exactly one flag and changes nothing but bits 2:0 of
`psr`. -/
def Obligations.SetccReportsTheSignByExactlyOneFlag : Prop :=
  ∀ (v : Word) (s : State),
    FlagsReport v (setcc v s) ∧ OneFlag (setcc v s) ∧ KeepsHighPsr s (setcc v s)
      ∧ setcc v s = { s with psr := (setcc v s).psr }

/-- 10_state.md R18: exactly the instructions of its list set the condition codes, each from the value it has written;
every other instruction leaves all of `psr`; and only BR reads it. -/
def Obligations.FlagWritersAndTheOnlyFlagReader : Prop :=
  (∀ (i : Instr) (s t : State), flagSource i = none → exec i s = .next t → t.psr = s.psr)
    ∧ (∀ (i : Instr) (a : Reg) (s t : State), flagSource i = some a → s.run = .running → s.pending = none →
        exec i s = .next t → t.run = .running → t.pending = none → FlagsReport (getReg t a) t ∧ KeepsHighPsr s t)
    ∧ (∀ (i : Instr) (s t : State) (q : Word), (∀ n z p off9, i ≠ .br n z p off9) → exec i s = .next t →
        ∃ t', exec i { s with psr := q } = .next t' ∧ t' = { t with psr := t'.psr })

/-! ## ADD, AND, NOT -/

/-- 40_alu.md R70: the wrapped sum of two registers, its flags, and nothing else; bits 4:3 have no effect. -/
def Obligations.AddRegisterForm : Prop :=
  ∀ (a b sr2 : Reg) (ign : BitVec 2) (s : State),
    decode (opcodeCode .add ++ a ++ b ++ 0b0#1 ++ ign ++ sr2) = .addReg a b sr2
      ∧ ∃ t, exec (.addReg a b sr2) s = .next t
        ∧ OnlyResultIn a (BitVec.ofNat 16 ((getReg s b).toNat + (getReg s sr2).toNat)) s t

/-- 40_alu.md R71: the wrapped sum of a register and the sign-extended immediate, its flags, and nothing else. -/
def Obligations.AddImmediateForm : Prop :=
  ∀ (a b : Reg) (imm5 : BitVec 5) (s : State),
    decode (opcodeCode .add ++ a ++ b ++ 0b1#1 ++ imm5) = .addImm a b imm5
      ∧ ∃ t, exec (.addImm a b imm5) s = .next t ∧ OnlyResultIn a (wordsFrom (getReg s b) imm5.toInt) s t

/-- 40_alu.md R72: the bitwise and of two registers, its flags, and nothing else; bits 4:3 have no effect. -/
def Obligations.AndRegisterForm : Prop :=
  ∀ (a b sr2 : Reg) (ign : BitVec 2) (s : State),
    decode (opcodeCode .and ++ a ++ b ++ 0b0#1 ++ ign ++ sr2) = .andReg a b sr2
      ∧ ∃ t, exec (.andReg a b sr2) s = .next t ∧ OnlyResultIn a (getReg t a) s t
        ∧ ∀ k, (getReg t a).getLsbD k = ((getReg s b).getLsbD k && (getReg s sr2).getLsbD k)

/-- 40_alu.md R73: the bitwise and of a register and the immediate, whose sign bit fills bits 15:5; its flags, and
nothing else. -/
def Obligations.AndImmediateForm : Prop :=
  ∀ (a b : Reg) (imm5 : BitVec 5) (s : State),
    decode (opcodeCode .and ++ a ++ b ++ 0b1#1 ++ imm5) = .andImm a b imm5
      ∧ ∃ t, exec (.andImm a b imm5) s = .next t ∧ OnlyResultIn a (getReg t a) s t
        ∧ ∀ k, (getReg t a).getLsbD k
            = ((getReg s b).getLsbD k && (if k < 5 then imm5.getLsbD k else imm5.getLsbD 4))

/-- 40_alu.md R74: every bit of the source inverted, 0xFFFF minus it, its flags, and nothing else; bits 5:0 have no
effect. -/
def Obligations.NotForm : Prop :=
  ∀ (a b : Reg) (ign : BitVec 6) (s : State),
    decode (opcodeCode .not ++ a ++ b ++ ign) = .not a b
      ∧ ∃ t, exec (.not a b) s = .next t ∧ OnlyResultIn a (0xFFFF#16 - getReg s b) s t

/-! ## BR, JMP, JSR, JSRR -/

/-- 41_control.md section 1: BR adds its offset to the incremented pc exactly when an enabled flag is set, and changes
nothing but pc. The and-then-any test is the spec's decision D10 (notes/assumptions 12). -/
def Obligations.BranchOnAnEnabledFlag : Prop :=
  ∀ (n z p : Bool) (off9 : BitVec 9) (s : State),
    decode (opcodeCode .br ++ BitVec.ofBool n ++ BitVec.ofBool z ++ BitVec.ofBool p ++ off9) = .br n z p off9
      ∧ ∃ t, exec (.br n z p off9) s = .next t
        ∧ t.pc = (if (BitVec.ofBool n ++ BitVec.ofBool z ++ BitVec.ofBool p) &&& s.psr.extractLsb' 0 3 = 0b000#3 then s.pc
            else wordsFrom s.pc off9.toInt)
        ∧ KeepsAllButPcAndRegs [] s t

/-- 41_control.md section 1: with no enable bit BR does nothing, and the all-zero word is such an instruction, so a
running core steps over a zero cell by advancing pc alone; with all three, it is taken exactly when some flag is set.
The test is D10 and BR's code 0b0000 is D1 (notes/assumptions 12, 1). -/
def Obligations.BranchWithNoneOrAllEnabled : Prop :=
  (∀ (off9 : BitVec 9) (s : State), exec (.br false false false off9) s = .next s)
    ∧ (∀ s : State, s.run = .running → s.pending = none → s.pc ≠ 0xFE02#16 → readCell s s.pc = 0x0000#16 →
        step s = .next { s with pc := s.pc + 1#16 })
    ∧ (∀ (off9 : BitVec 9) (s : State), exec (.br true true true off9) s
        = .next { s with pc := if flagN s || flagZ s || flagP s then wordsFrom s.pc off9.toInt else s.pc })

/-- 41_control.md R82: pc takes the base register's value and nothing else changes; bits 11:9 and 5:0 have no effect. -/
def Obligations.JumpForm : Prop :=
  ∀ (b : Reg) (hi : BitVec 3) (lo : BitVec 6) (s : State),
    decode (opcodeCode .jmp ++ hi ++ b ++ lo) = .jmp b
      ∧ ∃ t, exec (.jmp b) s = .next t ∧ t.pc = getReg s b ∧ KeepsAllButPcAndRegs [] s t

/-- 41_control.md R83: R7 takes the incremented pc, pc moves by the offset from it, nothing else changes. -/
def Obligations.JumpToSubroutineForm : Prop :=
  ∀ (off11 : BitVec 11) (s : State),
    decode (opcodeCode .jsr ++ 0b1#1 ++ off11) = .jsr off11
      ∧ ∃ t, exec (.jsr off11) s = .next t ∧ getReg t 7#3 = s.pc ∧ t.pc = wordsFrom s.pc off11.toInt
        ∧ KeepsAllButPcAndRegs [7#3] s t

/-- 41_control.md section 3: JSRR writes R7 and then reads its base, so `JSRR R7` goes to the incremented pc. The
order is the spec's decision D9 (notes/assumptions 11); that bits 10:9 and 5:0 have no effect is D12
(notes/assumptions 14). -/
def Obligations.JumpToSubroutineRegisterForm : Prop :=
  ∀ (b : Reg) (hi : BitVec 2) (lo : BitVec 6) (s : State),
    decode (opcodeCode .jsr ++ 0b0#1 ++ hi ++ b ++ lo) = .jsrr b
      ∧ ∃ t, exec (.jsrr b) s = .next t ∧ getReg t 7#3 = s.pc
        ∧ t.pc = (if b = 7#3 then s.pc else getReg s b) ∧ KeepsAllButPcAndRegs [7#3] s t

/-! ## Loads and stores -/

/-- 42_load_store.md section 2, LD: register a and the flags from the word at incremented pc + offset, or from the
keyboard when that address is 0xFE02. Zero for no byte is D8 (notes/assumptions 10), the wait notes/assumptions 5.
What a read that ends the run leaves, pc among it, is the spec's D7, D11, D17 and D20 (notes/assumptions 9, 13, 19,
21). -/
def Obligations.LoadForm : Prop :=
  ∀ (a : Reg) (off9 : BitVec 9) (s : State),
    decode (opcodeCode .ld ++ a ++ off9) = .ld a off9
      ∧ LoadsFrom a (wordsFrom s.pc off9.toInt) s (exec (.ld a off9) s)

/-- 42_load_store.md section 2, LDI: the pointer from incremented pc + offset, then the word it points at; the pointer
read may be a keyboard read too, and then the character is the address (D5, D26; notes/assumptions 8, 25). Zero for no
byte is D8 (notes/assumptions 10), the wait notes/assumptions 5. What a read that ends the run leaves, pc
among it, is the spec's D7, D11, D17 and D20 (notes/assumptions 9, 13, 19, 21). -/
def Obligations.LoadIndirectForm : Prop :=
  ∀ (a : Reg) (off9 : BitVec 9) (s : State),
    decode (opcodeCode .ldi ++ a ++ off9) = .ldi a off9
      ∧ (wordsFrom s.pc off9.toInt ≠ 0xFE02#16 →
          LoadsFrom a (readCell s (wordsFrom s.pc off9.toInt)) s (exec (.ldi a off9) s))
      ∧ (wordsFrom s.pc off9.toInt = 0xFE02#16 →
          ReadsCharacter (.loadPointer a)
            (fun c rest t => ResultIn a (readCell s c) s t ∧ ConsumesOne rest s t ∧ KeepsOutput s t ∧ KeepsControl s t)
            s (exec (.ldi a off9) s))

/-- 42_load_store.md section 2, LDR: as LD from base register + offset, the base read before register a is
written (D26, notes/assumptions 25). Zero for no byte is D8 (notes/assumptions 10), the wait notes/assumptions 5.
What a read that ends the run leaves, pc
among it, is the spec's D7, D11, D17 and D20 (notes/assumptions 9, 13, 19, 21). -/
def Obligations.LoadBaseOffsetForm : Prop :=
  ∀ (a b : Reg) (off6 : BitVec 6) (s : State),
    decode (opcodeCode .ldr ++ a ++ b ++ off6) = .ldr a b off6
      ∧ LoadsFrom a (wordsFrom (getReg s b) off6.toInt) s (exec (.ldr a b off6) s)

/-- 42_load_store.md R93: register a and the flags from the address itself; no memory access, no character read. -/
def Obligations.LoadEffectiveAddressForm : Prop :=
  ∀ (a : Reg) (off9 : BitVec 9) (s : State),
    decode (opcodeCode .lea ++ a ++ off9) = .lea a off9
      ∧ ∃ t, exec (.lea a off9) s = .next t ∧ OnlyResultIn a (wordsFrom s.pc off9.toInt) s t

/-- 42_load_store.md R94: the cell at incremented pc + offset takes register a, whatever the address; every other cell
and all else is kept. Memory's canonical form is `StepKeepsTheInvariant`'s. -/
def Obligations.StoreForm : Prop :=
  ∀ (a : Reg) (off9 : BitVec 9) (s : State), Memory.wf s.mem = true →
    decode (opcodeCode .st ++ a ++ off9) = .st a off9
      ∧ ∃ t, exec (.st a off9) s = .next t ∧ Stored (wordsFrom s.pc off9.toInt) (getReg s a) s t ∧ KeepsInput s t

/-- 42_load_store.md section 3, STI: the pointer is read through the bus, then the cell it points at takes register a; a
pointer read at 0xFE02 takes a character for the address (D5, D26; notes/assumptions 8, 25). Zero for no byte is D8
(notes/assumptions 10), the wait notes/assumptions 5. What a read that ends the run leaves, pc
among it, is the spec's D7, D11, D17 and D20 (notes/assumptions 9, 13, 19, 21). -/
def Obligations.StoreIndirectForm : Prop :=
  ∀ (a : Reg) (off9 : BitVec 9) (s : State), Memory.wf s.mem = true →
    decode (opcodeCode .sti ++ a ++ off9) = .sti a off9
      ∧ (wordsFrom s.pc off9.toInt ≠ 0xFE02#16 →
          ∃ t, exec (.sti a off9) s = .next t ∧ Stored (readCell s (wordsFrom s.pc off9.toInt)) (getReg s a) s t
            ∧ KeepsInput s t)
      ∧ (wordsFrom s.pc off9.toInt = 0xFE02#16 →
          ReadsCharacter (.storePointer a)
            (fun c rest t => Stored c (getReg s a) s t ∧ ConsumesOne rest s t) s (exec (.sti a off9) s))

/-- 42_load_store.md R96: the cell at base register + offset takes register a; every other cell and all else is kept. -/
def Obligations.StoreBaseOffsetForm : Prop :=
  ∀ (a b : Reg) (off6 : BitVec 6) (s : State), Memory.wf s.mem = true →
    decode (opcodeCode .str ++ a ++ b ++ off6) = .str a b off6
      ∧ ∃ t, exec (.str a b off6) s = .next t ∧ Stored (wordsFrom (getReg s b) off6.toInt) (getReg s a) s t
        ∧ KeepsInput s t

/-! ## TRAP and its services -/

/-- 43_system.md section 1, TRAP: the service is taken from bits 7:0 alone, R7 takes the incremented pc whatever the
vector and whatever the service then does, and pc is not written; a vector that names no service only writes R7. For a
service that waits for a character, the next state is the model's form of the wait (D27, notes/assumptions 5), and for
one that ends the run, what pc then is is the spec's decision D11 (notes/assumptions 13); that bits 11:8 have no
effect is D12 (notes/assumptions 14). -/
def Obligations.TrapWithNoServiceOnlyLinks : Prop :=
  ∀ (ign : BitVec 4) (v : Byte) (s : State),
    decode (opcodeCode .trap ++ ign ++ v)
        = (if v = 0x20#8 then .getc else if v = 0x21#8 then .out else if v = 0x22#8 then .puts else if v = 0x23#8 then .inp
            else if v = 0x24#8 then .putsp else if v = 0x25#8 then .halt else .trap v)
      ∧ (∃ t, exec (decode (opcodeCode .trap ++ ign ++ v)) s = .next t ∧ getReg t 7#3 = s.pc ∧ t.pc = s.pc)
      ∧ (v.toNat < 0x20 ∨ 0x25 < v.toNat →
          ∃ t, exec (.trap v) s = .next t ∧ getReg t 7#3 = s.pc ∧ t.pc = s.pc ∧ KeepsAllButPcAndRegs [7#3] s t)

/-- 43_system.md section 1, GETC: R7, then one character into R0 with its flags; on the sentinel or an unavailable
terminal R7 has been written and R0 and `psr` have not. Zero for no byte is D8 (notes/assumptions 10), the wait
notes/assumptions 5; that bits 11:8 have no effect is D12 (14). What a read that ends the run leaves, pc among it, is
the spec's D7, D11, D17 and D20 (notes/assumptions 9, 13, 19, 21). -/
def Obligations.GetcService : Prop :=
  ∀ (ign : BitVec 4) (s u : State), u = setReg 7#3 s.pc s →
    decode (opcodeCode .trap ++ ign ++ 0x20#8) = .getc
      ∧ ReadsCharacter .getc
          (fun c rest t => ResultIn 0#3 c u t ∧ ConsumesOne rest u t ∧ KeepsOutput u t ∧ KeepsControl u t) u (exec .getc s)

/-- 43_system.md R102: OUT emits the low byte of R0; R7 takes the incremented pc and bits 11:8 of the word have no
effect, as R100 says of every TRAP; nothing else changes. -/
def Obligations.OutService : Prop :=
  ∀ (ign : BitVec 4) (s : State),
    decode (opcodeCode .trap ++ ign ++ 0x21#8) = .out
      ∧ ∃ t, exec .out s = .next t ∧ OnlyEmitted [lowBits (getReg s 0#3)] s t

/-- 43_system.md section 1, PUTS: the low byte of each word from x[0] up to the first zero word, in one step; R7 takes
the incremented pc; nothing else changes. Which bits are the character, and the wrap, are D13 (notes/assumptions 15);
that bits 11:8 have no effect is D12 (notes/assumptions 14). -/
def Obligations.PutsService : Prop :=
  ∀ (ign : BitVec 4) (ws : List Word) (s : State), HoldsString s (getReg s 0#3) ws →
    decode (opcodeCode .trap ++ ign ++ 0x22#8) = .puts
      ∧ ∃ t, exec .puts s = .next t ∧ OnlyEmitted (ws.map lowBits) s t

/-- 43_system.md section 1, PUTS: when the words before 0xFE02 hold no zero, the read there is a keyboard read: the
earlier characters have been emitted; a zero character ends the string, the sentinel and an unavailable terminal end
the run, no answer leaves PUTS unfinished at 0xFE02, and another character is emitted and the string goes on at 0xFE03
(D5, D13; notes/assumptions 5, 8, 15). What a read that ends the run leaves, pc among it, is the spec's D7, D11, D17
and D20 (notes/assumptions 9, 13, 19, 21). A string that comes round to 0xFE02 again is `UnfinishedStringGoesOn`'s. -/
def Obligations.PutsReachingTheKeyboard : Prop :=
  ∀ (ws ws' : List Word) (s u : State), HoldsWords s (getReg s 0#3) ws →
    getReg s 0#3 + BitVec.ofNat 16 ws.length = 0xFE02#16 →
    u = { setReg 7#3 s.pc s with output := s.output ++ ws.map lowBits } →
    ReadsCharacter (.puts 0xFE02#16)
      (fun c rest t =>
        (c = 0x0000#16 → t = { u with input := rest, inputPos := u.inputPos + 1 })
          ∧ (c ≠ 0x0000#16 → HoldsString s 0xFE03#16 ws' →
              t = { u with output := u.output ++ [lowBits c] ++ ws'.map lowBits, input := rest, inputPos := u.inputPos + 1 }))
      u (exec .puts s)

/-- 43_system.md section 1, IN: R7, the prompt, one character echoed and put in R0 with its flags; on the sentinel or
an unavailable terminal the prompt has been emitted and R7 written and nothing else. The prompt is open and the echo
is after translation (D15; notes/assumptions 17); zero for no byte is D8 (10), the wait notes/assumptions 5; that bits
11:8 have no effect is D12 (14). What a read that ends the run leaves, pc among it, is the spec's D7, D11, D17 and D20
(notes/assumptions 9, 13, 19, 21). -/
def Obligations.InService : Prop :=
  ∀ (ign : BitVec 4) (s u : State), u = { setReg 7#3 s.pc s with output := s.output ++ Config.inPrompt } →
    decode (opcodeCode .trap ++ ign ++ 0x23#8) = .inp
      ∧ ReadsCharacter .inp
          (fun c rest t => ResultIn 0#3 c u t ∧ ConsumesOne rest u t ∧ t.output = u.output ++ [lowBits c]
            ∧ t.diag = u.diag ∧ KeepsControl u t)
          u (exec .inp s)

/-- 43_system.md section 1, PUTSP: for each word up to the first zero word, the low byte and then the high byte, a
zero byte inside a word as `PUTSP_SKIP_ZERO_BYTE` says, which is open (D14; notes/assumptions 16); that bits 11:8 have
no effect is D12 (notes/assumptions 14). -/
def Obligations.PutspService : Prop :=
  ∀ (ign : BitVec 4) (ws : List Word) (s : State), HoldsString s (getReg s 0#3) ws →
    decode (opcodeCode .trap ++ ign ++ 0x24#8) = .putsp
      ∧ ∃ t, exec .putsp s = .next t ∧ OnlyEmitted (ws.flatMap packedBytes) s t

/-- 43_system.md section 1, PUTSP: the read at 0xFE02 is a keyboard read, as in PUTS: the earlier words' bytes have been
emitted; a zero character ends the string, the sentinel and an unavailable terminal end the run, no answer leaves PUTSP
unfinished at 0xFE02, and another character is emitted as a word and the string goes on at 0xFE03 (D5, D14;
notes/assumptions 5, 8, 16). What a read that ends the run leaves, pc
among it, is the spec's D7, D11, D17 and D20 (notes/assumptions 9, 13, 19, 21).
A string that comes round to 0xFE02 again is `UnfinishedStringGoesOn`'s. -/
def Obligations.PutspReachingTheKeyboard : Prop :=
  ∀ (ws ws' : List Word) (s u : State), HoldsWords s (getReg s 0#3) ws →
    getReg s 0#3 + BitVec.ofNat 16 ws.length = 0xFE02#16 →
    u = { setReg 7#3 s.pc s with output := s.output ++ ws.flatMap packedBytes } →
    ReadsCharacter (.putsp 0xFE02#16)
      (fun c rest t =>
        (c = 0x0000#16 → t = { u with input := rest, inputPos := u.inputPos + 1 })
          ∧ (c ≠ 0x0000#16 → HoldsString s 0xFE03#16 ws' →
              t = { u with output := u.output ++ packedBytes c ++ ws'.flatMap packedBytes, input := rest, inputPos := u.inputPos + 1 }))
      u (exec .putsp s)

/-- 43_system.md section 1, HALT: R7, the notice, and the run has ended with status 0, whatever the registers; nothing
else changes. That the notice goes to ConOut is D16 (notes/assumptions 18), pc after the run's end D11 (13), that bits
11:8 have no effect D12 (14). -/
def Obligations.HaltService : Prop :=
  ∀ (ign : BitVec 4) (s : State),
    decode (opcodeCode .trap ++ ign ++ 0x25#8) = .halt
      ∧ ∃ t, exec .halt s = .next t ∧ EndedWith [7#3] .halt 0 s t ∧ getReg t 7#3 = s.pc
        ∧ t.output = s.output ++ Config.haltNotice ∧ t.diag = s.diag ∧ KeepsInput s t

/-! ## RTI and INVALID -/

/-- 43_system.md section 2, RTI: an abort with a status that is not zero; a diagnostic; no register, flag or cell
changes, and pc is the incremented pc (D11, D17, D18; notes/assumptions 13, 19, 20). That bits 11:0 have no effect is
D12 (notes/assumptions 14). -/
def Obligations.RtiEndsTheRun : Prop :=
  ∀ (ign : BitVec 12) (s : State),
    decode (opcodeCode .rti ++ ign) = .rti
      ∧ ∃ t, exec .rti s = .next t ∧ EndedWith [] .rtiUnimplemented Config.abortStatus s t ∧ Config.abortStatus ≠ 0
        ∧ t.output = s.output ∧ t.diag = s.diag ++ [.rtiUnimplemented] ∧ KeepsInput s t

/-- 43_system.md section 2, INVALID: any word of code 0b1101 ends the run with status 1 and reports the opcode; no
register, flag or cell changes, and pc is the incremented pc (D11, D17; notes/assumptions 13, 19). That bits 11:0 have
no effect is D12 (notes/assumptions 14). -/
def Obligations.InvalidOpcodeEndsTheRun : Prop :=
  ∀ (ign : BitVec 12) (s : State),
    decode (0b1101#4 ++ ign) = .invalid
      ∧ ∃ t, exec .invalid s = .next t ∧ EndedWith [] .invalidOpcode 1 s t ∧ t.output = s.output
        ∧ t.diag = s.diag ++ [.invalidOpcode 0b1101#4] ∧ KeepsInput s t

/-! ## The bus -/

/-- 20_memory.md R33: a read of any address but 0xFE02 gives the stored word and has no side effect; a read of 0xFE02
is an acquisition, whatever the cell holds. -/
def Obligations.BusReadByAddress : Prop :=
  ∀ (addr : Word) (s : State),
    (addr ≠ 0xFE02#16 → memRead addr s = .value (readCell s addr) s)
      ∧ (addr = 0xFE02#16 → memRead addr s = acquire s)

/-- 20_memory.md section 3: an acquisition by the answer it gets. Zero for no byte is D8, the unavailable terminal D20
with its diagnostic D17 (notes/assumptions 10, 21, 19), the open status D18 (20), the cells left alone D7 (9), no
answer yet notes/assumptions 5. -/
def Obligations.AcquisitionByAnswer : Prop :=
  ∀ s : State,
    (∀ r rest c, s.input = r :: rest → Received r c →
        acquire s = .value c { s with input := rest, inputPos := s.inputPos + 1 })
      ∧ (∀ rest, s.input = .byte 0x03#8 :: rest →
          acquire s = .ended { s with input := rest, inputPos := s.inputPos + 1, run := .terminated .sentinel 0 })
      ∧ (∀ rest, s.input = .unavailable :: rest →
          acquire s = .ended { s with input := rest, inputPos := s.inputPos + 1, diag := s.diag ++ [.terminalUnavailable], run := .terminated .terminalUnavailable Config.abortStatus })
      ∧ (s.input = [] → acquire s = .waiting)
      ∧ Config.abortStatus ≠ 0

/-- 20_memory.md R34: a write stores at every address, 0xFE00 and 0xFE02 among them, leaves every other cell and every
other part of the state (D7, notes/assumptions 9), and keeps the canonical form (the model's, notes/assumptions 26). -/
def Obligations.WriteStoresAndDoesNothingElse : Prop :=
  ∀ (addr v : Word) (s : State), Memory.wf s.mem = true →
    readCell (memWrite addr v s) addr = v
      ∧ (∀ a, a ≠ addr → readCell (memWrite addr v s) a = readCell s a)
      ∧ memWrite addr v s = { s with mem := (memWrite addr v s).mem }
      ∧ Memory.wf (memWrite addr v s).mem = true

/-- Canonical memories that read alike at every address are the same data (10_state.md section 4; the form is
notes/assumptions 26). -/
def Obligations.EqualContentsAreEqualMemories : Prop :=
  ∀ m m' : Memory, Memory.wf m = true → Memory.wf m' = true → (∀ a, Memory.read m a = Memory.read m' a) → m = m'

/-! ## The step -/

/-- A running core with no unfinished instruction and its pc on a storage cell executes what the cell's word decodes
to, on the state with pc advanced by one modulo 65536 (10_state.md sections 2 and 5). The unfinished instruction is
the model's form of the wait (notes/assumptions 5). -/
def Obligations.StepRunsTheDecodedInstruction : Prop :=
  ∀ (i : Instr) (s : State), s.run = .running → s.pending = none → s.pc ≠ 0xFE02#16 → decode (readCell s s.pc) = i →
    step s = exec i { s with pc := BitVec.ofNat 16 (s.pc.toNat + 1) }

/-- At pc 0xFE02 the fetch takes a character and executes it as an instruction; if it ends the run, or no answer has
arrived, nothing is executed and pc stays (10_state.md section 5; through the bus by D4, pc by D11, the diagnostic by
D17, the unavailable terminal by D20, zero for no byte by D8: notes/assumptions 8, 13, 19, 21, 10; the wait
notes/assumptions 5). -/
def Obligations.FetchAtTheKeyboard : Prop :=
  ∀ s : State, s.run = .running → s.pending = none → s.pc = 0xFE02#16 →
    (∀ r rest c, s.input = r :: rest → Received r c →
        step s = exec (decode c) { s with pc := 0xFE03#16, input := rest, inputPos := s.inputPos + 1 })
      ∧ (∀ rest, s.input = .byte 0x03#8 :: rest →
          ∃ t, step s = .next t ∧ EndedWith [] .sentinel 0 s t ∧ ConsumesOne rest s t ∧ KeepsOutput s t)
      ∧ (∀ rest, s.input = .unavailable :: rest →
          ∃ t, step s = .next t ∧ EndedWith [] .terminalUnavailable Config.abortStatus s t ∧ ConsumesOne rest s t
            ∧ t.output = s.output ∧ t.diag = s.diag ++ [.terminalUnavailable])
      ∧ (s.input = [] → step s = .next s)

/-- A TERMINATED core has no step, and presents its reason and status; the fault is the model's form (10_state.md
section 5; notes/assumptions 27). A RUNNING core always has a next state, also while it waits for an answer, where the
spec gives it no step: that is the model's choice (notes/assumptions 5; D27). The core is RUNNING at reset. -/
def Obligations.TerminationIsFinal : Prop :=
  (∀ s : State, s.run = .running → ∃ t, step s = .next t)
    ∧ (∀ (s : State) (reason : TermReason) (status : Int), s.run = .terminated reason status →
        step s = .fault (.terminated reason status))
    ∧ (∀ p : Word, (State.resetWith p).run = .running)

/-- While no answer has arrived, a step keeps all state (60_exceptions.md section 5; notes/assumptions 5). -/
def Obligations.WaitingKeepsAllState : Prop :=
  ∀ (k : Pending) (s : State), s.run = .running → s.pending = some k → waitsForCharacter k → s.input = [] →
    step s = .next s

/-- A wait cannot be told from an answer that was there at once: if any instruction is left unfinished, after whatever
answers it has consumed, then delivering one and stepping gives what the instruction gives with that answer already
there (20_memory.md section 3, 60_exceptions.md section 5). The unfinished instruction is the model's form of the wait
(notes/assumptions 5, 6). -/
def Obligations.WaitingIsTransparent : Prop :=
  ∀ (i : Instr) (r : Answer) (s t : State), s.run = .running → s.pending = none → exec i s = .next t →
    t.pending ≠ none → step (t.deliver r) = exec i (s.deliver r)

/-- PUTS and PUTSP, begun by the instruction or left unfinished, go on one word at a time from any address, however
often the string comes round to 0xFE02: the zero word ends it, another word's bytes are emitted and the string goes on
at the next address, modulo 65536, and at 0xFE02 the word is a character (43_system.md section 1, 60_exceptions.md
section 5; D5, D13, D14: notes/assumptions 8, 15, 16). The mark of the unfinished service is the model's
(notes/assumptions 5, 6). What a read that ends the run leaves, pc among it, is the spec's D7, D11, D17 and D20
(notes/assumptions 9, 13, 19, 21). -/
def Obligations.UnfinishedStringGoesOn : Prop :=
  ∀ u : State, u.run = .running → u.pending = none →
    StringGoesOn .puts (fun w => [lowBits w]) u ∧ StringGoesOn .putsp packedBytes u
      ∧ exec .puts u = step { setReg 7#3 u.pc u with pending := some (.puts (getReg u 0#3)) }
      ∧ exec .putsp u = step { setReg 7#3 u.pc u with pending := some (.putsp (getReg u 0#3)) }

/-- A store is seen by the next fetch from its cell (20_memory.md section 5): once ST, STR or STI has stored, any
running core with that memory and its pc at the address executes the word stored, the very next instruction
included. -/
def Obligations.StoreIsSeenByTheNextFetch : Prop :=
  ∀ (i : Instr) (a : Reg) (ea : Word) (s t u : State), Memory.wf s.mem = true →
    ((∃ off9, i = .st a off9 ∧ ea = wordsFrom s.pc off9.toInt)
      ∨ (∃ b off6, i = .str a b off6 ∧ ea = wordsFrom (getReg s b) off6.toInt)
      ∨ (∃ off9, i = .sti a off9 ∧ wordsFrom s.pc off9.toInt ≠ 0xFE02#16
          ∧ ea = readCell s (wordsFrom s.pc off9.toInt))) →
    exec i s = .next t → u.mem = t.mem → u.pc = ea → ea ≠ 0xFE02#16 → u.run = .running → u.pending = none →
    step u = exec (decode (getReg s a)) { u with pc := ea + 1#16 }

/-! ## Invariants and rules of the whole machine -/

/-- Every step keeps the canonical form of memory, the status of a terminated core as its reason's, and an unfinished
instruction only in a RUNNING core and only at a character read. The canonical form and the mark of an unfinished
instruction are the model's (notes/assumptions 26, 5, 6). -/
def Obligations.StepKeepsTheInvariant : Prop :=
  ∀ s t : State, s.Inv → step s = .next t → t.Inv

/-- The invariant holds at reset and in every start state of a run; there no instruction is unfinished and nothing has
been reported. The canonical form of memory, the mark of an unfinished instruction and the diagnostics at reset are
the model's (notes/assumptions 26, 5, 19), and so is the start state of an image that does not fit, which the spec
gives no meaning (D22, notes/assumptions 22). -/
def Obligations.StartStatesMeetTheInvariant : Prop :=
  State.reset.Inv ∧ (∀ p : Word, (State.resetWith p).Inv)
    ∧ ∀ (p : Word) (input : List Answer) (img : Image),
        (State.boot p input img).Inv ∧ (State.boot p input img).pending = none ∧ (State.boot p input img).diag = []

/-- Once exactly one flag is set, it is so for ever (10_state.md section 3). -/
def Obligations.ExactlyOneFlagIsKept : Prop :=
  ∀ s t : State, OneFlag s → step s = .next t → OneFlag t

/-- No step changes bits 15:3 of `psr` (10_state.md section 3; D3, notes/assumptions 23). -/
def Obligations.HighStatusBitsNeverChange : Prop :=
  ∀ s t : State, step s = .next t → KeepsHighPsr s t

/-- No instruction but ST, STI and STR changes any memory cell, whatever it reads, emits or ends (10_state.md section
4, 42_load_store.md section 3, 20_memory.md sections 2 and 3). That a keyboard read at 0xFE02 leaves the cells at
0xFE02 and 0xFE00 as they were is the spec's decision D7 (notes/assumptions 9). -/
def Obligations.OnlyStoresChangeMemory : Prop :=
  ∀ (i : Instr) (s t : State), stores i = false → exec i s = .next t → KeepsMemory s t

/-- No instruction but OUT, PUTS, IN, PUTSP and HALT emits a byte (10_state.md section 6). That the diagnostics of
RTI, INVALID and an unavailable terminal are no part of the output is the spec's decision D17 (notes/assumptions
19). -/
def Obligations.OnlyTrapServicesEmit : Prop :=
  ∀ (i : Instr) (s t : State), emits i = false → exec i s = .next t → t.output = s.output

/-- A step only appends to the output and to the diagnostics: nothing emitted is lost (10_state.md section 6). Both are
choices: that a byte stays emitted whatever ends the run is the spec's decision D25 (notes/assumptions 24), and that
diagnostics are a channel of their own, apart from the output, is D17 (notes/assumptions 19). -/
def Obligations.OutputOnlyGrows : Prop :=
  ∀ s t : State, step s = .next t → (∃ text, t.output = s.output ++ text) ∧ ∃ ds, t.diag = s.diag ++ ds

/-- A step consumes input answers in order, and the input position counts them (10_state.md sections 5 and 6). That the
state holds the answers that have arrived, as a list, is the model's form of INPUT (D27, notes/assumptions 4). -/
def Obligations.InputIsConsumedInOrder : Prop :=
  ∀ s t : State, step s = .next t → ∃ used, s.input = used ++ t.input ∧ t.inputPos = s.inputPos + used.length

/-- An instruction that cannot ask for a character neither consumes nor depends on the input: an interrupt sentinel the
program never reads has no effect (60_exceptions.md section 2). -/
def Obligations.UnreadInputHasNoEffect : Prop :=
  ∀ (i : Instr) (s t : State) (q : List Answer), mayAcquire i = false → exec i s = .next t →
    t.input = s.input ∧ exec i { s with input := q } = .next { t with input := q }

/-- The run ends only for one of the five reasons of 60_exceptions.md section 1, each with the status of its row: by the
execution of an instruction, and by any step, a fetch at 0xFE02 and a step that goes on with an unfinished instruction
(notes/assumptions 5, 8) among them. The sentinel and the unavailable terminal (D20, notes/assumptions 21) are the last
answer consumed. -/
def Obligations.RunEndsOnlyForItsReasons : Prop :=
  (∀ (i : Instr) (s t : State) (reason : TermReason) (status : Int), s.run = .running → exec i s = .next t →
    t.run = .terminated reason status →
    (reason = .halt ∧ i = .halt ∧ status = 0)
      ∨ (reason = .invalidOpcode ∧ i = .invalid ∧ status = 1)
      ∨ (reason = .rtiUnimplemented ∧ i = .rti ∧ status = Config.abortStatus)
      ∨ (reason = .sentinel ∧ mayAcquire i = true ∧ status = 0 ∧ ∃ used, s.input = used ++ .byte 0x03#8 :: t.input)
      ∨ (reason = .terminalUnavailable ∧ mayAcquire i = true ∧ status = Config.abortStatus
          ∧ ∃ used, s.input = used ++ .unavailable :: t.input))
    ∧ ∀ (s t : State) (reason : TermReason) (status : Int), step s = .next t → t.run = .terminated reason status →
      s.run = .running
        ∧ ((reason = .halt ∧ Executes .halt s ∧ status = 0)
          ∨ (reason = .invalidOpcode ∧ Executes .invalid s ∧ status = 1)
          ∨ (reason = .rtiUnimplemented ∧ Executes .rti s ∧ status = Config.abortStatus)
          ∨ (reason = .sentinel ∧ MayAsk s ∧ status = 0 ∧ ∃ used, s.input = used ++ .byte 0x03#8 :: t.input)
          ∨ (reason = .terminalUnavailable ∧ MayAsk s ∧ status = Config.abortStatus
              ∧ ∃ used, s.input = used ++ .unavailable :: t.input))

/-- However long it runs and from whatever state, the machine stops only because the core has TERMINATED: no instruction
faults and none is refused (60_exceptions.md section 1, 30_encoding.md section 3). That a waiting core answers a next
state, where the spec gives it no step, and that a TERMINATED one answers a fault are the model's choices
(notes/assumptions 5, 27). -/
def Obligations.NoInstructionStopsTheMachine : Prop :=
  ∀ (n : Nat) (s : State), SafeRun n s

/-! ## Reset and the image -/

/-- 70_reset_and_hazards.md R141: the state when execution begins, for every `PSR_RESET`, every input and every image
that fits. -/
def Obligations.StartStateHoldsTheImage : Prop :=
  ∀ (p : Word) (input : List Answer) (img : Image) (s : State), img.fits = true → s = State.boot p input img →
    (∀ r, getReg s r = 0x0000#16) ∧ s.pc = img.origin ∧ s.psr = p ∧ s.run = .running
      ∧ s.input = input ∧ s.inputPos = 0 ∧ s.output = []
      ∧ (∀ (j : Nat) (h : j < img.words.length), readCell s (img.origin + BitVec.ofNat 16 j) = img.words[j])
      ∧ (∀ a : Word, (∀ j < img.words.length, a ≠ img.origin + BitVec.ofNat 16 j) → readCell s a = 0x0000#16)

/-- The file of an image is big-endian words, origin first: every image that fits is read back from its file; a file
of odd length, an empty one, or one whose words do not fit holds no image (70_reset_and_hazards.md section 2; D22,
notes/assumptions 22). -/
def Obligations.ImageFileIsBigEndianWords : Prop :=
  (∀ img : Image, img.fits = true →
      Image.ofBytes ((img.origin :: img.words).flatMap fun w => [highBits w, lowBits w]) = some img)
    ∧ (∀ file : List Byte, file.length % 2 = 1 → Image.ofBytes file = none)
    ∧ Image.ofBytes [] = none
    ∧ (∀ img : Image, img.fits = false →
        Image.ofBytes ((img.origin :: img.words).flatMap fun w => [highBits w, lowBits w]) = none)

/-- 10_state.md R12: every general register reads 0x0000 at reset. -/
def Obligations.RegistersAreZeroAtReset : Prop :=
  ∀ (p : Word) (r : Reg), getReg (State.resetWith p) r = 0x0000#16
end

