-- ==== Sys2Proof/Laws/Decode.lean ====
section
/-!
SUPPORT. The opcode table and its inverse agree; the fields of a word of each format; and what each row of the opcode
table decodes to, whatever its ignored bits hold, the word written out as the row's pattern (30_encoding.md R52, R55, R57).
-/

namespace Sys2Proof

theorem opcodeMap_opcodeCode (o : Opcode) : opcodeMap (opcodeCode o) = o := by
  cases o <;> decide

theorem opcodeCode_opcodeMap (c : BitVec 4) : opcodeCode (opcodeMap c) = c := by
  revert c; decide

/-! ## The fields of a word of each format (30_encoding.md R52) -/

/-- Format BR. -/
theorem fields_br (o : BitVec 4) (n z p : Bool) (off9 : BitVec 9) :
    fieldOpcode (o ++ BitVec.ofBool n ++ BitVec.ofBool z ++ BitVec.ofBool p ++ off9) = o
      ∧ fieldOff9 (o ++ BitVec.ofBool n ++ BitVec.ofBool z ++ BitVec.ofBool p ++ off9) = off9
      ∧ BitVec.getLsbD (w := 16) (o ++ BitVec.ofBool n ++ BitVec.ofBool z ++ BitVec.ofBool p ++ off9) 11 = n
      ∧ BitVec.getLsbD (w := 16) (o ++ BitVec.ofBool n ++ BitVec.ofBool z ++ BitVec.ofBool p ++ off9) 10 = z
      ∧ BitVec.getLsbD (w := 16) (o ++ BitVec.ofBool n ++ BitVec.ofBool z ++ BitVec.ofBool p ++ off9) 9 = p := by
  refine ⟨?_, ?_, ?_, ?_, ?_⟩
  · apply BitVec.eq_of_getLsbD_eq
    intro i hi
    simp only [fieldOpcode, BitVec.getLsbD_extractLsb']
    interval_cases i <;> simp only [BitVec.getLsbD_append] <;> simp
  · apply BitVec.eq_of_getLsbD_eq
    intro i hi
    simp only [fieldOff9, BitVec.getLsbD_extractLsb']
    interval_cases i <;> simp only [BitVec.getLsbD_append] <;> simp
  · simp only [BitVec.getLsbD_append]
    simp
  · simp only [BitVec.getLsbD_append]
    simp
  · simp only [BitVec.getLsbD_append]
    simp

/-- Format RRR. -/
theorem fields_rrr (o : BitVec 4) (a b c : Reg) (ign : BitVec 2) :
    fieldOpcode (o ++ a ++ b ++ 0b0#1 ++ ign ++ c) = o
      ∧ fieldA (o ++ a ++ b ++ 0b0#1 ++ ign ++ c) = a
      ∧ fieldB (o ++ a ++ b ++ 0b0#1 ++ ign ++ c) = b
      ∧ fieldSr2 (o ++ a ++ b ++ 0b0#1 ++ ign ++ c) = c
      ∧ BitVec.getLsbD (w := 16) (o ++ a ++ b ++ 0b0#1 ++ ign ++ c) 5 = false := by
  refine ⟨?_, ?_, ?_, ?_, ?_⟩
  · apply BitVec.eq_of_getLsbD_eq
    intro i hi
    simp only [fieldOpcode, BitVec.getLsbD_extractLsb']
    interval_cases i <;> simp only [BitVec.getLsbD_append] <;> simp
  · apply BitVec.eq_of_getLsbD_eq
    intro i hi
    simp only [fieldA, BitVec.getLsbD_extractLsb']
    interval_cases i <;> simp only [BitVec.getLsbD_append] <;> simp
  · apply BitVec.eq_of_getLsbD_eq
    intro i hi
    simp only [fieldB, BitVec.getLsbD_extractLsb']
    interval_cases i <;> simp only [BitVec.getLsbD_append] <;> simp
  · apply BitVec.eq_of_getLsbD_eq
    intro i hi
    simp only [fieldSr2, BitVec.getLsbD_extractLsb']
    interval_cases i <;> simp only [BitVec.getLsbD_append] <;> simp
  · simp only [BitVec.getLsbD_append]
    simp

/-- Format RRI. -/
theorem fields_rri (o : BitVec 4) (a b : Reg) (imm5 : BitVec 5) :
    fieldOpcode (o ++ a ++ b ++ 0b1#1 ++ imm5) = o
      ∧ fieldA (o ++ a ++ b ++ 0b1#1 ++ imm5) = a
      ∧ fieldB (o ++ a ++ b ++ 0b1#1 ++ imm5) = b
      ∧ fieldImm5 (o ++ a ++ b ++ 0b1#1 ++ imm5) = imm5
      ∧ BitVec.getLsbD (w := 16) (o ++ a ++ b ++ 0b1#1 ++ imm5) 5 = true := by
  refine ⟨?_, ?_, ?_, ?_, ?_⟩
  · apply BitVec.eq_of_getLsbD_eq
    intro i hi
    simp only [fieldOpcode, BitVec.getLsbD_extractLsb']
    interval_cases i <;> simp only [BitVec.getLsbD_append] <;> simp
  · apply BitVec.eq_of_getLsbD_eq
    intro i hi
    simp only [fieldA, BitVec.getLsbD_extractLsb']
    interval_cases i <;> simp only [BitVec.getLsbD_append] <;> simp
  · apply BitVec.eq_of_getLsbD_eq
    intro i hi
    simp only [fieldB, BitVec.getLsbD_extractLsb']
    interval_cases i <;> simp only [BitVec.getLsbD_append] <;> simp
  · apply BitVec.eq_of_getLsbD_eq
    intro i hi
    simp only [fieldImm5, BitVec.getLsbD_extractLsb']
    interval_cases i <;> simp only [BitVec.getLsbD_append] <;> simp
  · simp only [BitVec.getLsbD_append]
    simp

/-- Format RO. -/
theorem fields_ro (o : BitVec 4) (a : Reg) (off9 : BitVec 9) :
    fieldOpcode (o ++ a ++ off9) = o
      ∧ fieldA (o ++ a ++ off9) = a
      ∧ fieldOff9 (o ++ a ++ off9) = off9 := by
  refine ⟨?_, ?_, ?_⟩
  · apply BitVec.eq_of_getLsbD_eq
    intro i hi
    simp only [fieldOpcode, BitVec.getLsbD_extractLsb']
    interval_cases i <;> simp only [BitVec.getLsbD_append] <;> simp
  · apply BitVec.eq_of_getLsbD_eq
    intro i hi
    simp only [fieldA, BitVec.getLsbD_extractLsb']
    interval_cases i <;> simp only [BitVec.getLsbD_append] <;> simp
  · apply BitVec.eq_of_getLsbD_eq
    intro i hi
    simp only [fieldOff9, BitVec.getLsbD_extractLsb']
    interval_cases i <;> simp only [BitVec.getLsbD_append] <;> simp

/-- Format RRO, and of RR, whose last six bits are ignored. -/
theorem fields_rro (o : BitVec 4) (a b : Reg) (off6 : BitVec 6) :
    fieldOpcode (o ++ a ++ b ++ off6) = o
      ∧ fieldA (o ++ a ++ b ++ off6) = a
      ∧ fieldB (o ++ a ++ b ++ off6) = b
      ∧ fieldOff6 (o ++ a ++ b ++ off6) = off6 := by
  refine ⟨?_, ?_, ?_, ?_⟩
  · apply BitVec.eq_of_getLsbD_eq
    intro i hi
    simp only [fieldOpcode, BitVec.getLsbD_extractLsb']
    interval_cases i <;> simp only [BitVec.getLsbD_append] <;> simp
  · apply BitVec.eq_of_getLsbD_eq
    intro i hi
    simp only [fieldA, BitVec.getLsbD_extractLsb']
    interval_cases i <;> simp only [BitVec.getLsbD_append] <;> simp
  · apply BitVec.eq_of_getLsbD_eq
    intro i hi
    simp only [fieldB, BitVec.getLsbD_extractLsb']
    interval_cases i <;> simp only [BitVec.getLsbD_append] <;> simp
  · apply BitVec.eq_of_getLsbD_eq
    intro i hi
    simp only [fieldOff6, BitVec.getLsbD_extractLsb']
    interval_cases i <;> simp only [BitVec.getLsbD_append] <;> simp

/-- Format R. -/
theorem fields_r (o : BitVec 4) (hi : BitVec 3) (b : Reg) (lo : BitVec 6) :
    fieldOpcode (o ++ hi ++ b ++ lo) = o
      ∧ fieldB (o ++ hi ++ b ++ lo) = b := by
  refine ⟨?_, ?_⟩
  · apply BitVec.eq_of_getLsbD_eq
    intro i hi
    simp only [fieldOpcode, BitVec.getLsbD_extractLsb']
    interval_cases i <;> simp only [BitVec.getLsbD_append] <;> simp
  · apply BitVec.eq_of_getLsbD_eq
    intro i hi
    simp only [fieldB, BitVec.getLsbD_extractLsb']
    interval_cases i <;> simp only [BitVec.getLsbD_append] <;> simp

/-- Format J. -/
theorem fields_j (o : BitVec 4) (off11 : BitVec 11) :
    fieldOpcode (o ++ 0b1#1 ++ off11) = o
      ∧ fieldOff11 (o ++ 0b1#1 ++ off11) = off11
      ∧ BitVec.getLsbD (w := 16) (o ++ 0b1#1 ++ off11) 11 = true := by
  refine ⟨?_, ?_, ?_⟩
  · apply BitVec.eq_of_getLsbD_eq
    intro i hi
    simp only [fieldOpcode, BitVec.getLsbD_extractLsb']
    interval_cases i <;> simp only [BitVec.getLsbD_append] <;> simp
  · apply BitVec.eq_of_getLsbD_eq
    intro i hi
    simp only [fieldOff11, BitVec.getLsbD_extractLsb']
    interval_cases i <;> simp only [BitVec.getLsbD_append] <;> simp
  · simp only [BitVec.getLsbD_append]
    simp

/-- Format JR. -/
theorem fields_jr (o : BitVec 4) (hi : BitVec 2) (b : Reg) (lo : BitVec 6) :
    fieldOpcode (o ++ 0b0#1 ++ hi ++ b ++ lo) = o
      ∧ fieldB (o ++ 0b0#1 ++ hi ++ b ++ lo) = b
      ∧ BitVec.getLsbD (w := 16) (o ++ 0b0#1 ++ hi ++ b ++ lo) 11 = false := by
  refine ⟨?_, ?_, ?_⟩
  · apply BitVec.eq_of_getLsbD_eq
    intro i hi
    simp only [fieldOpcode, BitVec.getLsbD_extractLsb']
    interval_cases i <;> simp only [BitVec.getLsbD_append] <;> simp
  · apply BitVec.eq_of_getLsbD_eq
    intro i hi
    simp only [fieldB, BitVec.getLsbD_extractLsb']
    interval_cases i <;> simp only [BitVec.getLsbD_append] <;> simp
  · simp only [BitVec.getLsbD_append]
    simp

/-- Format T. -/
theorem fields_t (o : BitVec 4) (ign : BitVec 4) (vect8 : Byte) :
    fieldOpcode (o ++ ign ++ vect8) = o
      ∧ fieldVect8 (o ++ ign ++ vect8) = vect8 := by
  refine ⟨?_, ?_⟩
  · apply BitVec.eq_of_getLsbD_eq
    intro i hi
    simp only [fieldOpcode, BitVec.getLsbD_extractLsb']
    interval_cases i <;> simp only [BitVec.getLsbD_append] <;> simp
  · apply BitVec.eq_of_getLsbD_eq
    intro i hi
    simp only [fieldVect8, BitVec.getLsbD_extractLsb']
    interval_cases i <;> simp only [BitVec.getLsbD_append] <;> simp

/-- Format N. -/
theorem fields_n (o : BitVec 4) (ign : BitVec 12) :
    fieldOpcode (o ++ ign) = o := by
  apply BitVec.eq_of_getLsbD_eq
  intro i hi
  simp only [fieldOpcode, BitVec.getLsbD_extractLsb']
  interval_cases i <;> simp only [BitVec.getLsbD_append] <;> simp

/-! ## What each row decodes to (30_encoding.md R55) -/

theorem decode_br (n z p : Bool) (off9 : BitVec 9) :
    decode (0b0000#4 ++ BitVec.ofBool n ++ BitVec.ofBool z ++ BitVec.ofBool p ++ off9) = .br n z p off9 := by
  obtain ⟨h0, h1, h2, h3, h4⟩ := fields_br 0b0000#4 n z p off9
  simp only [decode, h0, h1, h2, h3, h4]
  rfl

theorem decode_addReg (a b sr2 : Reg) (ign : BitVec 2) :
    decode (0b0001#4 ++ a ++ b ++ 0b0#1 ++ ign ++ sr2) = .addReg a b sr2 := by
  obtain ⟨h0, h1, h2, h3, h4⟩ := fields_rrr 0b0001#4 a b sr2 ign
  simp only [decode, h0, h1, h2, h3, h4]
  rfl

theorem decode_addImm (a b : Reg) (imm5 : BitVec 5) :
    decode (0b0001#4 ++ a ++ b ++ 0b1#1 ++ imm5) = .addImm a b imm5 := by
  obtain ⟨h0, h1, h2, h3, h4⟩ := fields_rri 0b0001#4 a b imm5
  simp only [decode, h0, h1, h2, h3, h4]
  rfl

theorem decode_ld (a : Reg) (off9 : BitVec 9) :
    decode (0b0010#4 ++ a ++ off9) = .ld a off9 := by
  obtain ⟨h0, h1, h2⟩ := fields_ro 0b0010#4 a off9
  simp only [decode, h0, h1, h2]
  rfl

theorem decode_st (a : Reg) (off9 : BitVec 9) :
    decode (0b0011#4 ++ a ++ off9) = .st a off9 := by
  obtain ⟨h0, h1, h2⟩ := fields_ro 0b0011#4 a off9
  simp only [decode, h0, h1, h2]
  rfl

theorem decode_jsrr (b : Reg) (hi : BitVec 2) (lo : BitVec 6) :
    decode (0b0100#4 ++ 0b0#1 ++ hi ++ b ++ lo) = .jsrr b := by
  obtain ⟨h0, h1, h2⟩ := fields_jr 0b0100#4 hi b lo
  simp only [decode, h0, h1, h2]
  rfl

theorem decode_jsr (off11 : BitVec 11) :
    decode (0b0100#4 ++ 0b1#1 ++ off11) = .jsr off11 := by
  obtain ⟨h0, h1, h2⟩ := fields_j 0b0100#4 off11
  simp only [decode, h0, h1, h2]
  rfl

theorem decode_andReg (a b sr2 : Reg) (ign : BitVec 2) :
    decode (0b0101#4 ++ a ++ b ++ 0b0#1 ++ ign ++ sr2) = .andReg a b sr2 := by
  obtain ⟨h0, h1, h2, h3, h4⟩ := fields_rrr 0b0101#4 a b sr2 ign
  simp only [decode, h0, h1, h2, h3, h4]
  rfl

theorem decode_andImm (a b : Reg) (imm5 : BitVec 5) :
    decode (0b0101#4 ++ a ++ b ++ 0b1#1 ++ imm5) = .andImm a b imm5 := by
  obtain ⟨h0, h1, h2, h3, h4⟩ := fields_rri 0b0101#4 a b imm5
  simp only [decode, h0, h1, h2, h3, h4]
  rfl

theorem decode_ldr (a b : Reg) (off6 : BitVec 6) :
    decode (0b0110#4 ++ a ++ b ++ off6) = .ldr a b off6 := by
  obtain ⟨h0, h1, h2, h3⟩ := fields_rro 0b0110#4 a b off6
  simp only [decode, h0, h1, h2, h3]
  rfl

theorem decode_str (a b : Reg) (off6 : BitVec 6) :
    decode (0b0111#4 ++ a ++ b ++ off6) = .str a b off6 := by
  obtain ⟨h0, h1, h2, h3⟩ := fields_rro 0b0111#4 a b off6
  simp only [decode, h0, h1, h2, h3]
  rfl

theorem decode_rti (ign : BitVec 12) :
    decode (0b1000#4 ++ ign) = .rti := by
  have h0 := fields_n 0b1000#4 ign
  simp only [decode, h0]
  rfl

theorem decode_not (a b : Reg) (ign : BitVec 6) :
    decode (0b1001#4 ++ a ++ b ++ ign) = .not a b := by
  obtain ⟨h0, h1, h2, -⟩ := fields_rro 0b1001#4 a b ign
  simp only [decode, h0, h1, h2]
  rfl

theorem decode_ldi (a : Reg) (off9 : BitVec 9) :
    decode (0b1010#4 ++ a ++ off9) = .ldi a off9 := by
  obtain ⟨h0, h1, h2⟩ := fields_ro 0b1010#4 a off9
  simp only [decode, h0, h1, h2]
  rfl

theorem decode_sti (a : Reg) (off9 : BitVec 9) :
    decode (0b1011#4 ++ a ++ off9) = .sti a off9 := by
  obtain ⟨h0, h1, h2⟩ := fields_ro 0b1011#4 a off9
  simp only [decode, h0, h1, h2]
  rfl

theorem decode_jmp (b : Reg) (hi : BitVec 3) (lo : BitVec 6) :
    decode (0b1100#4 ++ hi ++ b ++ lo) = .jmp b := by
  obtain ⟨h0, h1⟩ := fields_r 0b1100#4 hi b lo
  simp only [decode, h0, h1]
  rfl

theorem decode_invalid (ign : BitVec 12) :
    decode (0b1101#4 ++ ign) = .invalid := by
  have h0 := fields_n 0b1101#4 ign
  simp only [decode, h0]
  rfl

theorem decode_lea (a : Reg) (off9 : BitVec 9) :
    decode (0b1110#4 ++ a ++ off9) = .lea a off9 := by
  obtain ⟨h0, h1, h2⟩ := fields_ro 0b1110#4 a off9
  simp only [decode, h0, h1, h2]
  rfl

theorem decode_trap (ign : BitVec 4) (vect8 : Byte) :
    decode (0b1111#4 ++ ign ++ vect8) = decodeTrap vect8 := by
  obtain ⟨h0, h1⟩ := fields_t 0b1111#4 ign vect8
  simp only [decode, h0, h1]
  rfl

/-! ## The trap vectors -/

/-- A vector is one of the six services' or names none (43_system.md R100). -/
theorem decodeTrap_cases (v : Byte) :
    (v = 0x20#8 ∧ decodeTrap v = .getc) ∨ (v = 0x21#8 ∧ decodeTrap v = .out) ∨ (v = 0x22#8 ∧ decodeTrap v = .puts)
      ∨ (v = 0x23#8 ∧ decodeTrap v = .inp) ∨ (v = 0x24#8 ∧ decodeTrap v = .putsp) ∨ (v = 0x25#8 ∧ decodeTrap v = .halt)
      ∨ (v ∉ serviceVectors ∧ decodeTrap v = .trap v) := by
  unfold decodeTrap
  split_ifs <;> simp_all [serviceVectors]

/-- A vector outside 0x20 to 0x25 names no service (43_system.md R107). -/
theorem decodeTrap_other (v : Byte) (h : v.toNat < 0x20 ∨ 0x25 < v.toNat) : decodeTrap v = .trap v := by
  rcases decodeTrap_cases v with ⟨rfl, -⟩ | ⟨rfl, -⟩ | ⟨rfl, -⟩ | ⟨rfl, -⟩ | ⟨rfl, -⟩ | ⟨rfl, -⟩ | ⟨-, h'⟩
  all_goals first | exact h' | exact absurd h (by decide)

/-! ## Every word has the shape of its row -/

theorem shape_br (w : Word) :
    w = fieldOpcode w ++ BitVec.ofBool (w.getLsbD 11) ++ BitVec.ofBool (w.getLsbD 10) ++ BitVec.ofBool (w.getLsbD 9)
      ++ fieldOff9 w := by
  apply BitVec.eq_of_getLsbD_eq
  intro i hi
  interval_cases i <;> simp only [BitVec.getLsbD_append] <;> simp [fieldOpcode, fieldOff9]

theorem shape_rrr (w : Word) (h : w.getLsbD 5 = false) :
    w = fieldOpcode w ++ fieldA w ++ fieldB w ++ 0b0#1 ++ w.extractLsb' 3 2 ++ fieldSr2 w := by
  apply BitVec.eq_of_getLsbD_eq
  intro i hi
  interval_cases i <;> simp only [BitVec.getLsbD_append, h] <;> simp [fieldOpcode, fieldA, fieldB, fieldSr2]

theorem shape_rri (w : Word) (h : w.getLsbD 5 = true) :
    w = fieldOpcode w ++ fieldA w ++ fieldB w ++ 0b1#1 ++ fieldImm5 w := by
  apply BitVec.eq_of_getLsbD_eq
  intro i hi
  interval_cases i <;> simp only [BitVec.getLsbD_append, h] <;> simp [fieldOpcode, fieldA, fieldB, fieldImm5]

theorem shape_ro (w : Word) : w = fieldOpcode w ++ fieldA w ++ fieldOff9 w := by
  apply BitVec.eq_of_getLsbD_eq
  intro i hi
  interval_cases i <;> simp only [BitVec.getLsbD_append] <;> simp [fieldOpcode, fieldA, fieldOff9]

theorem shape_rro (w : Word) : w = fieldOpcode w ++ fieldA w ++ fieldB w ++ fieldOff6 w := by
  apply BitVec.eq_of_getLsbD_eq
  intro i hi
  interval_cases i <;> simp only [BitVec.getLsbD_append] <;> simp [fieldOpcode, fieldA, fieldB, fieldOff6]

theorem shape_j (w : Word) (h : w.getLsbD 11 = true) : w = fieldOpcode w ++ 0b1#1 ++ fieldOff11 w := by
  apply BitVec.eq_of_getLsbD_eq
  intro i hi
  interval_cases i <;> simp only [BitVec.getLsbD_append, h] <;> simp [fieldOpcode, fieldOff11]

theorem shape_jr (w : Word) (h : w.getLsbD 11 = false) :
    w = fieldOpcode w ++ 0b0#1 ++ w.extractLsb' 9 2 ++ fieldB w ++ fieldOff6 w := by
  apply BitVec.eq_of_getLsbD_eq
  intro i hi
  interval_cases i <;> simp only [BitVec.getLsbD_append, h] <;> simp [fieldOpcode, fieldB, fieldOff6]

theorem shape_t (w : Word) : w = fieldOpcode w ++ w.extractLsb' 8 4 ++ fieldVect8 w := by
  apply BitVec.eq_of_getLsbD_eq
  intro i hi
  interval_cases i <;> simp only [BitVec.getLsbD_append] <;> simp [fieldOpcode, fieldVect8]

theorem shape_n (w : Word) : w = fieldOpcode w ++ w.extractLsb' 0 12 := by
  apply BitVec.eq_of_getLsbD_eq
  intro i hi
  interval_cases i <;> simp only [BitVec.getLsbD_append] <;> simp [fieldOpcode]

/-- To show something of every word, show it of the words of each row (30_encoding.md R55). -/
theorem word_cases {P : Word → Prop}
    (br : ∀ (n z p : Bool) (off9 : BitVec 9), P (0b0000#4 ++ BitVec.ofBool n ++ BitVec.ofBool z ++ BitVec.ofBool p ++ off9))
    (addReg : ∀ (a b sr2 : Reg) (ign : BitVec 2), P (0b0001#4 ++ a ++ b ++ 0b0#1 ++ ign ++ sr2))
    (addImm : ∀ (a b : Reg) (imm5 : BitVec 5), P (0b0001#4 ++ a ++ b ++ 0b1#1 ++ imm5))
    (ld : ∀ (a : Reg) (off9 : BitVec 9), P (0b0010#4 ++ a ++ off9))
    (st : ∀ (a : Reg) (off9 : BitVec 9), P (0b0011#4 ++ a ++ off9))
    (jsrr : ∀ (hi : BitVec 2) (b : Reg) (lo : BitVec 6), P (0b0100#4 ++ 0b0#1 ++ hi ++ b ++ lo))
    (jsr : ∀ off11 : BitVec 11, P (0b0100#4 ++ 0b1#1 ++ off11))
    (andReg : ∀ (a b sr2 : Reg) (ign : BitVec 2), P (0b0101#4 ++ a ++ b ++ 0b0#1 ++ ign ++ sr2))
    (andImm : ∀ (a b : Reg) (imm5 : BitVec 5), P (0b0101#4 ++ a ++ b ++ 0b1#1 ++ imm5))
    (ldr : ∀ (a b : Reg) (off6 : BitVec 6), P (0b0110#4 ++ a ++ b ++ off6))
    (str : ∀ (a b : Reg) (off6 : BitVec 6), P (0b0111#4 ++ a ++ b ++ off6))
    (rti : ∀ ign : BitVec 12, P (0b1000#4 ++ ign))
    (not : ∀ (a b : Reg) (ign : BitVec 6), P (0b1001#4 ++ a ++ b ++ ign))
    (ldi : ∀ (a : Reg) (off9 : BitVec 9), P (0b1010#4 ++ a ++ off9))
    (sti : ∀ (a : Reg) (off9 : BitVec 9), P (0b1011#4 ++ a ++ off9))
    (jmp : ∀ (hi : Reg) (b : Reg) (lo : BitVec 6), P (0b1100#4 ++ hi ++ b ++ lo))
    (invalid : ∀ ign : BitVec 12, P (0b1101#4 ++ ign))
    (lea : ∀ (a : Reg) (off9 : BitVec 9), P (0b1110#4 ++ a ++ off9))
    (trap : ∀ (ign : BitVec 4) (vect8 : Byte), P (0b1111#4 ++ ign ++ vect8)) (w : Word) : P w := by
  have hc : ∀ c : BitVec 4, c = 0b0000#4 ∨ c = 0b0001#4 ∨ c = 0b0010#4 ∨ c = 0b0011#4 ∨ c = 0b0100#4 ∨ c = 0b0101#4
      ∨ c = 0b0110#4 ∨ c = 0b0111#4 ∨ c = 0b1000#4 ∨ c = 0b1001#4 ∨ c = 0b1010#4 ∨ c = 0b1011#4 ∨ c = 0b1100#4
      ∨ c = 0b1101#4 ∨ c = 0b1110#4 ∨ c = 0b1111#4 := by decide
  rcases hc (fieldOpcode w) with h | h | h | h | h | h | h | h | h | h | h | h | h | h | h | h
  · rw [shape_br w, h]; exact br _ _ _ _
  · cases h5 : w.getLsbD 5
    · rw [shape_rrr w h5, h]; exact addReg _ _ _ _
    · rw [shape_rri w h5, h]; exact addImm _ _ _
  · rw [shape_ro w, h]; exact ld _ _
  · rw [shape_ro w, h]; exact st _ _
  · cases h11 : w.getLsbD 11
    · rw [shape_jr w h11, h]; exact jsrr _ _ _
    · rw [shape_j w h11, h]; exact jsr _
  · cases h5 : w.getLsbD 5
    · rw [shape_rrr w h5, h]; exact andReg _ _ _ _
    · rw [shape_rri w h5, h]; exact andImm _ _ _
  · rw [shape_rro w, h]; exact ldr _ _ _
  · rw [shape_rro w, h]; exact str _ _ _
  · rw [shape_n w, h]; exact rti _
  · rw [shape_rro w, h]; exact not _ _ _
  · rw [shape_ro w, h]; exact ldi _ _
  · rw [shape_ro w, h]; exact sti _ _
  · rw [shape_rro w, h]; exact jmp _ _ _
  · rw [shape_n w, h]; exact invalid _
  · rw [shape_ro w, h]; exact lea _ _
  · rw [shape_t w, h]; exact trap _ _

end Sys2Proof
end

