-- ==== Sys2Proof/Laws/State.lean ====
section
/-!
SUPPORT. One lemma per field per update of the state, so that no proof unfolds a record update.
-/

namespace Sys2Proof.Machine

open Sys2Proof

/-! ## setReg -/

@[simp] theorem setReg_regs (r : Reg) (v : Word) (s : State) : (setReg r v s).regs = s.regs.set r.toNat v r.isLt := rfl
@[simp] theorem setReg_pc (r : Reg) (v : Word) (s : State) : (setReg r v s).pc = s.pc := rfl
@[simp] theorem setReg_psr (r : Reg) (v : Word) (s : State) : (setReg r v s).psr = s.psr := rfl
@[simp] theorem setReg_mem (r : Reg) (v : Word) (s : State) : (setReg r v s).mem = s.mem := rfl
@[simp] theorem setReg_run (r : Reg) (v : Word) (s : State) : (setReg r v s).run = s.run := rfl
@[simp] theorem setReg_input (r : Reg) (v : Word) (s : State) : (setReg r v s).input = s.input := rfl
@[simp] theorem setReg_inputPos (r : Reg) (v : Word) (s : State) : (setReg r v s).inputPos = s.inputPos := rfl
@[simp] theorem setReg_output (r : Reg) (v : Word) (s : State) : (setReg r v s).output = s.output := rfl
@[simp] theorem setReg_diag (r : Reg) (v : Word) (s : State) : (setReg r v s).diag = s.diag := rfl
@[simp] theorem setReg_pending (r : Reg) (v : Word) (s : State) : (setReg r v s).pending = s.pending := rfl
@[simp] theorem readCell_setReg (r : Reg) (v : Word) (s : State) (c : Word) : readCell (setReg r v s) c = readCell s c := rfl

/-! ## setPc -/

@[simp] theorem setPc_regs (t : Word) (s : State) : (setPc t s).regs = s.regs := rfl
@[simp] theorem setPc_pc (t : Word) (s : State) : (setPc t s).pc = t := rfl
@[simp] theorem setPc_psr (t : Word) (s : State) : (setPc t s).psr = s.psr := rfl
@[simp] theorem setPc_mem (t : Word) (s : State) : (setPc t s).mem = s.mem := rfl
@[simp] theorem setPc_run (t : Word) (s : State) : (setPc t s).run = s.run := rfl
@[simp] theorem setPc_input (t : Word) (s : State) : (setPc t s).input = s.input := rfl
@[simp] theorem setPc_inputPos (t : Word) (s : State) : (setPc t s).inputPos = s.inputPos := rfl
@[simp] theorem setPc_output (t : Word) (s : State) : (setPc t s).output = s.output := rfl
@[simp] theorem setPc_diag (t : Word) (s : State) : (setPc t s).diag = s.diag := rfl
@[simp] theorem setPc_pending (t : Word) (s : State) : (setPc t s).pending = s.pending := rfl
@[simp] theorem getReg_setPc (t : Word) (s : State) (q : Reg) : getReg (setPc t s) q = getReg s q := rfl
@[simp] theorem readCell_setPc (t : Word) (s : State) (c : Word) : readCell (setPc t s) c = readCell s c := rfl

/-! ## memWrite -/

@[simp] theorem memWrite_regs (addr v : Word) (s : State) : (memWrite addr v s).regs = s.regs := rfl
@[simp] theorem memWrite_pc (addr v : Word) (s : State) : (memWrite addr v s).pc = s.pc := rfl
@[simp] theorem memWrite_psr (addr v : Word) (s : State) : (memWrite addr v s).psr = s.psr := rfl
@[simp] theorem memWrite_mem (addr v : Word) (s : State) : (memWrite addr v s).mem = Memory.write s.mem addr v := rfl
@[simp] theorem memWrite_run (addr v : Word) (s : State) : (memWrite addr v s).run = s.run := rfl
@[simp] theorem memWrite_input (addr v : Word) (s : State) : (memWrite addr v s).input = s.input := rfl
@[simp] theorem memWrite_inputPos (addr v : Word) (s : State) : (memWrite addr v s).inputPos = s.inputPos := rfl
@[simp] theorem memWrite_output (addr v : Word) (s : State) : (memWrite addr v s).output = s.output := rfl
@[simp] theorem memWrite_diag (addr v : Word) (s : State) : (memWrite addr v s).diag = s.diag := rfl
@[simp] theorem memWrite_pending (addr v : Word) (s : State) : (memWrite addr v s).pending = s.pending := rfl
@[simp] theorem getReg_memWrite (addr v : Word) (s : State) (q : Reg) : getReg (memWrite addr v s) q = getReg s q := rfl

/-! ## emit -/

@[simp] theorem emit_regs (b : Byte) (s : State) : (emit b s).regs = s.regs := rfl
@[simp] theorem emit_pc (b : Byte) (s : State) : (emit b s).pc = s.pc := rfl
@[simp] theorem emit_psr (b : Byte) (s : State) : (emit b s).psr = s.psr := rfl
@[simp] theorem emit_mem (b : Byte) (s : State) : (emit b s).mem = s.mem := rfl
@[simp] theorem emit_run (b : Byte) (s : State) : (emit b s).run = s.run := rfl
@[simp] theorem emit_input (b : Byte) (s : State) : (emit b s).input = s.input := rfl
@[simp] theorem emit_inputPos (b : Byte) (s : State) : (emit b s).inputPos = s.inputPos := rfl
@[simp] theorem emit_output (b : Byte) (s : State) : (emit b s).output = s.output ++ [b] := rfl
@[simp] theorem emit_diag (b : Byte) (s : State) : (emit b s).diag = s.diag := rfl
@[simp] theorem emit_pending (b : Byte) (s : State) : (emit b s).pending = s.pending := rfl
@[simp] theorem getReg_emit (b : Byte) (s : State) (q : Reg) : getReg (emit b s) q = getReg s q := rfl
@[simp] theorem readCell_emit (b : Byte) (s : State) (c : Word) : readCell (emit b s) c = readCell s c := rfl

/-! ## emitAll -/

@[simp] theorem emitAll_regs (text : List Byte) (s : State) : (emitAll text s).regs = s.regs := rfl
@[simp] theorem emitAll_pc (text : List Byte) (s : State) : (emitAll text s).pc = s.pc := rfl
@[simp] theorem emitAll_psr (text : List Byte) (s : State) : (emitAll text s).psr = s.psr := rfl
@[simp] theorem emitAll_mem (text : List Byte) (s : State) : (emitAll text s).mem = s.mem := rfl
@[simp] theorem emitAll_run (text : List Byte) (s : State) : (emitAll text s).run = s.run := rfl
@[simp] theorem emitAll_input (text : List Byte) (s : State) : (emitAll text s).input = s.input := rfl
@[simp] theorem emitAll_inputPos (text : List Byte) (s : State) : (emitAll text s).inputPos = s.inputPos := rfl
@[simp] theorem emitAll_output (text : List Byte) (s : State) : (emitAll text s).output = s.output ++ text := rfl
@[simp] theorem emitAll_diag (text : List Byte) (s : State) : (emitAll text s).diag = s.diag := rfl
@[simp] theorem emitAll_pending (text : List Byte) (s : State) : (emitAll text s).pending = s.pending := rfl
@[simp] theorem getReg_emitAll (text : List Byte) (s : State) (q : Reg) : getReg (emitAll text s) q = getReg s q := rfl
@[simp] theorem readCell_emitAll (text : List Byte) (s : State) (c : Word) : readCell (emitAll text s) c = readCell s c := rfl

/-! ## report -/

@[simp] theorem report_regs (d : Diagnostic) (s : State) : (report d s).regs = s.regs := rfl
@[simp] theorem report_pc (d : Diagnostic) (s : State) : (report d s).pc = s.pc := rfl
@[simp] theorem report_psr (d : Diagnostic) (s : State) : (report d s).psr = s.psr := rfl
@[simp] theorem report_mem (d : Diagnostic) (s : State) : (report d s).mem = s.mem := rfl
@[simp] theorem report_run (d : Diagnostic) (s : State) : (report d s).run = s.run := rfl
@[simp] theorem report_input (d : Diagnostic) (s : State) : (report d s).input = s.input := rfl
@[simp] theorem report_inputPos (d : Diagnostic) (s : State) : (report d s).inputPos = s.inputPos := rfl
@[simp] theorem report_output (d : Diagnostic) (s : State) : (report d s).output = s.output := rfl
@[simp] theorem report_diag (d : Diagnostic) (s : State) : (report d s).diag = s.diag ++ [d] := rfl
@[simp] theorem report_pending (d : Diagnostic) (s : State) : (report d s).pending = s.pending := rfl
@[simp] theorem getReg_report (d : Diagnostic) (s : State) (q : Reg) : getReg (report d s) q = getReg s q := rfl
@[simp] theorem readCell_report (d : Diagnostic) (s : State) (c : Word) : readCell (report d s) c = readCell s c := rfl

/-! ## consumeAnswer -/

@[simp] theorem consumeAnswer_regs (rest : List Answer) (s : State) : (consumeAnswer rest s).regs = s.regs := rfl
@[simp] theorem consumeAnswer_pc (rest : List Answer) (s : State) : (consumeAnswer rest s).pc = s.pc := rfl
@[simp] theorem consumeAnswer_psr (rest : List Answer) (s : State) : (consumeAnswer rest s).psr = s.psr := rfl
@[simp] theorem consumeAnswer_mem (rest : List Answer) (s : State) : (consumeAnswer rest s).mem = s.mem := rfl
@[simp] theorem consumeAnswer_run (rest : List Answer) (s : State) : (consumeAnswer rest s).run = s.run := rfl
@[simp] theorem consumeAnswer_input (rest : List Answer) (s : State) : (consumeAnswer rest s).input = rest := rfl
@[simp] theorem consumeAnswer_inputPos (rest : List Answer) (s : State) : (consumeAnswer rest s).inputPos = s.inputPos + 1 := rfl
@[simp] theorem consumeAnswer_output (rest : List Answer) (s : State) : (consumeAnswer rest s).output = s.output := rfl
@[simp] theorem consumeAnswer_diag (rest : List Answer) (s : State) : (consumeAnswer rest s).diag = s.diag := rfl
@[simp] theorem consumeAnswer_pending (rest : List Answer) (s : State) : (consumeAnswer rest s).pending = s.pending := rfl
@[simp] theorem getReg_consumeAnswer (rest : List Answer) (s : State) (q : Reg) : getReg (consumeAnswer rest s) q = getReg s q := rfl
@[simp] theorem readCell_consumeAnswer (rest : List Answer) (s : State) (c : Word) : readCell (consumeAnswer rest s) c = readCell s c := rfl

/-! ## setPending -/

@[simp] theorem setPending_regs (k : Option Pending) (s : State) : (setPending k s).regs = s.regs := rfl
@[simp] theorem setPending_pc (k : Option Pending) (s : State) : (setPending k s).pc = s.pc := rfl
@[simp] theorem setPending_psr (k : Option Pending) (s : State) : (setPending k s).psr = s.psr := rfl
@[simp] theorem setPending_mem (k : Option Pending) (s : State) : (setPending k s).mem = s.mem := rfl
@[simp] theorem setPending_run (k : Option Pending) (s : State) : (setPending k s).run = s.run := rfl
@[simp] theorem setPending_input (k : Option Pending) (s : State) : (setPending k s).input = s.input := rfl
@[simp] theorem setPending_inputPos (k : Option Pending) (s : State) : (setPending k s).inputPos = s.inputPos := rfl
@[simp] theorem setPending_output (k : Option Pending) (s : State) : (setPending k s).output = s.output := rfl
@[simp] theorem setPending_diag (k : Option Pending) (s : State) : (setPending k s).diag = s.diag := rfl
@[simp] theorem setPending_pending (k : Option Pending) (s : State) : (setPending k s).pending = k := rfl
@[simp] theorem getReg_setPending (k : Option Pending) (s : State) (q : Reg) : getReg (setPending k s) q = getReg s q := rfl
@[simp] theorem readCell_setPending (k : Option Pending) (s : State) (c : Word) : readCell (setPending k s) c = readCell s c := rfl

/-! ## terminate -/

@[simp] theorem terminate_regs (reason : TermReason) (s : State) : (terminate reason s).regs = s.regs := rfl
@[simp] theorem terminate_pc (reason : TermReason) (s : State) : (terminate reason s).pc = s.pc := rfl
@[simp] theorem terminate_psr (reason : TermReason) (s : State) : (terminate reason s).psr = s.psr := rfl
@[simp] theorem terminate_mem (reason : TermReason) (s : State) : (terminate reason s).mem = s.mem := rfl
@[simp] theorem terminate_run (reason : TermReason) (s : State) : (terminate reason s).run = .terminated reason (exitStatus reason) := rfl
@[simp] theorem terminate_input (reason : TermReason) (s : State) : (terminate reason s).input = s.input := rfl
@[simp] theorem terminate_inputPos (reason : TermReason) (s : State) : (terminate reason s).inputPos = s.inputPos := rfl
@[simp] theorem terminate_output (reason : TermReason) (s : State) : (terminate reason s).output = s.output := rfl
@[simp] theorem terminate_diag (reason : TermReason) (s : State) : (terminate reason s).diag = s.diag := rfl
@[simp] theorem terminate_pending (reason : TermReason) (s : State) : (terminate reason s).pending = s.pending := rfl
@[simp] theorem getReg_terminate (reason : TermReason) (s : State) (q : Reg) : getReg (terminate reason s) q = getReg s q := rfl
@[simp] theorem readCell_terminate (reason : TermReason) (s : State) (c : Word) : readCell (terminate reason s) c = readCell s c := rfl

/-! ## setcc -/

@[simp] theorem setcc_regs (v : Word) (s : State) : (setcc v s).regs = s.regs := rfl
@[simp] theorem setcc_pc (v : Word) (s : State) : (setcc v s).pc = s.pc := rfl
@[simp] theorem setcc_psr (v : Word) (s : State) : (setcc v s).psr = (s.psr &&& 0xFFF8#16) ||| conditionBits v := rfl
@[simp] theorem setcc_mem (v : Word) (s : State) : (setcc v s).mem = s.mem := rfl
@[simp] theorem setcc_run (v : Word) (s : State) : (setcc v s).run = s.run := rfl
@[simp] theorem setcc_input (v : Word) (s : State) : (setcc v s).input = s.input := rfl
@[simp] theorem setcc_inputPos (v : Word) (s : State) : (setcc v s).inputPos = s.inputPos := rfl
@[simp] theorem setcc_output (v : Word) (s : State) : (setcc v s).output = s.output := rfl
@[simp] theorem setcc_diag (v : Word) (s : State) : (setcc v s).diag = s.diag := rfl
@[simp] theorem setcc_pending (v : Word) (s : State) : (setcc v s).pending = s.pending := rfl
@[simp] theorem getReg_setcc (v : Word) (s : State) (q : Reg) : getReg (setcc v s) q = getReg s q := rfl
@[simp] theorem readCell_setcc (v : Word) (s : State) (c : Word) : readCell (setcc v s) c = readCell s c := rfl

/-! ## Registers -/

@[simp] theorem getReg_setReg_same (r : Reg) (v : Word) (s : State) : getReg (setReg r v s) r = v := by
  simp [getReg]

theorem getReg_setReg_ne (r q : Reg) (v : Word) (s : State) (h : q ≠ r) : getReg (setReg r v s) q = getReg s q := by
  have h' : r.toNat ≠ q.toNat := fun e => h (BitVec.eq_of_toNat_eq e.symm)
  simp [getReg, h']

theorem getReg_setReg (r q : Reg) (v : Word) (s : State) :
    getReg (setReg r v s) q = if q = r then v else getReg s q := by
  split
  · next h => subst h; simp
  · next h => exact getReg_setReg_ne r q v s h

/-- The program counter moves on by one and nothing else changes (10_state.md R14). -/
theorem advancePc_eq (s : State) : advancePc s = setPc (s.pc + 1#16) s := rfl

/-- Only R7 changes (43_system.md R100). -/
theorem linkR7_eq (s : State) : linkR7 s = setReg 7#3 s.pc s := rfl

/-- The common end of a flag-setting instruction (10_state.md R18). -/
theorem writeResult_eq (a : Reg) (v : Word) (s : State) : writeResult a v s = setcc v (setReg a v s) := rfl

end Sys2Proof.Machine
end

