-- ==== Sys2Proof/Laws/Flags.lean ====
section
/-!
SUPPORT. What `setcc` and the common end of a flag-setting instruction do (10_state.md R16 to R18).
-/

namespace Sys2Proof.Machine

open Sys2Proof

theorem conditionBits_getLsbD (v : Word) (k : Nat) :
    (conditionBits v).getLsbD k
      = ((decide (k = 2) && isNegative v) || (decide (k = 1) && isZero v) || (decide (k = 0) && isPositive v)) := by
  obtain hk | hk : k < 16 ∨ 16 ≤ k := by omega
  · unfold conditionBits
    generalize isNegative v = n
    generalize isZero v = z
    generalize isPositive v = p
    revert n z p
    interval_cases k <;> decide
  · rw [BitVec.getLsbD_of_ge _ _ hk]
    have h2 : k ≠ 2 := by omega
    have h1 : k ≠ 1 := by omega
    have h0 : k ≠ 0 := by omega
    simp [h2, h1, h0]

theorem highMask_getLsbD (k : Nat) : (0xFFF8#16 : Word).getLsbD k = (decide (3 ≤ k) && decide (k < 16)) := by
  obtain hk | hk : k < 16 ∨ 16 ≤ k := by omega
  · interval_cases k <;> decide
  · rw [BitVec.getLsbD_of_ge _ _ hk]
    have : ¬ k < 16 := by omega
    simp [this]

/-- Every bit of `psr` after `setcc`. -/
theorem setcc_psr_getLsbD (v : Word) (s : State) (k : Nat) :
    (setcc v s).psr.getLsbD k
      = ((decide (3 ≤ k) && s.psr.getLsbD k) || (decide (k = 2) && isNegative v) || (decide (k = 1) && isZero v)
          || (decide (k = 0) && isPositive v)) := by
  rw [setcc_psr, BitVec.getLsbD_or, BitVec.getLsbD_and, highMask_getLsbD, conditionBits_getLsbD]
  obtain hk | hk : k < 16 ∨ 16 ≤ k := by omega
  · simp [hk, Bool.and_comm, Bool.or_assoc]
  · rw [BitVec.getLsbD_of_ge s.psr k hk]
    simp

@[simp] theorem flagN_setcc (v : Word) (s : State) : flagN (setcc v s) = isNegative v := by
  rw [flagN, setcc_psr_getLsbD]
  simp

@[simp] theorem flagZ_setcc (v : Word) (s : State) : flagZ (setcc v s) = isZero v := by
  rw [flagZ, setcc_psr_getLsbD]
  simp

@[simp] theorem flagP_setcc (v : Word) (s : State) : flagP (setcc v s) = isPositive v := by
  rw [flagP, setcc_psr_getLsbD]
  simp

/-! ## The flags as signs -/

theorem isNegative_iff (v : Word) : isNegative v = decide (v.toInt < 0) := by
  have h : v.getLsbD 15 = v.msb := by simp [BitVec.msb_eq_getLsbD_last]
  have hm := BitVec.msb_eq_toInt (x := v)
  by_cases hv : v = 0#16
  · subst hv; decide
  · rw [isNegative, h, hm]
    simp [bne, hv]

theorem isZero_iff (v : Word) : isZero v = decide (v.toInt = 0) := by
  have h : v.toInt = 0 ↔ v = 0#16 := by
    rw [← BitVec.toInt_inj]; simp
  by_cases hv : v = 0#16 <;> simp [isZero, hv, h]

theorem isPositive_iff (v : Word) : isPositive v = decide (0 < v.toInt) := by
  have hn := isNegative_iff v
  have hz := isZero_iff v
  have h0 : isPositive v = (!isNegative v && !isZero v) := by
    unfold isPositive isNegative isZero
    cases v.getLsbD 15 <;> by_cases hv : v = 0#16 <;> simp [bne, hv]
  rw [h0, hn, hz]
  by_cases h1 : v.toInt < 0 <;> by_cases h2 : v.toInt = 0 <;> simp [h1, h2] <;> omega

/-! ## The specification lemmas that callers cite -/

/-- `setcc` reports its value and keeps bits 15:3. -/
theorem setcc_flagsReport (v : Word) (s : State) : FlagsReport v (setcc v s) :=
  ⟨by rw [flagN_setcc, isNegative_iff], by rw [flagZ_setcc, isZero_iff], by rw [flagP_setcc, isPositive_iff]⟩

theorem setcc_keepsHighPsr (v : Word) (s : State) : KeepsHighPsr s (setcc v s) := by
  intro k hk
  have h2 : k ≠ 2 := by omega
  have h1 : k ≠ 1 := by omega
  have h0 : k ≠ 0 := by omega
  rw [setcc_psr_getLsbD]
  simp [hk, h2, h1, h0]

/-- The whole effect of writing a result: the register, the flags, and nothing else. -/
theorem writeResult_onlyResultIn (a : Reg) (v : Word) (s : State) : OnlyResultIn a v s (writeResult a v s) := by
  refine ⟨⟨?_, ?_, setcc_flagsReport v _, setcc_keepsHighPsr v _, rfl, fun _ => rfl⟩, ⟨rfl, rfl⟩, ⟨rfl, rfl⟩, rfl, rfl⟩
  · simp [writeResult]
  · intro r hr
    have : r ≠ a := by simpa using hr
    simp [writeResult, getReg_setReg_ne _ _ _ _ this]

/-- After `setcc` exactly one flag is set (10_state.md R17). -/
theorem setcc_oneFlag (v : Word) (s : State) : OneFlag (setcc v s) := by
  unfold OneFlag
  rw [flagN_setcc, flagZ_setcc, flagP_setcc, isNegative_iff, isZero_iff, isPositive_iff]
  obtain h | h | h := lt_trichotomy v.toInt 0
  · left; simp [h]; omega
  · right; left; simp [h]
  · right; right; simp [h]; omega

end Sys2Proof.Machine
end

