-- ==== Sys2Proof/Laws/Memory.lean ====
section
/-!
SUPPORT. The laws of memory: what a read after a write gives, that every operation keeps the canonical form, and that
canonical memories with equal contents are equal data (10_state.md R20, 20_memory.md R34).
-/

namespace Sys2Proof.Machine

open Sys2Proof

theorem Memory.wfFrom_cons {lo k : Nat} {v : Word} {rest : Memory} :
    Memory.wfFrom lo ((k, v) :: rest) = true ↔
      lo ≤ k ∧ k < memorySize ∧ v ≠ 0#16 ∧ Memory.wfFrom (k + 1) rest = true := by
  simp [Memory.wfFrom, and_assoc]

theorem Memory.wfFrom_mono {lo lo' : Nat} (h : lo' ≤ lo) {m : Memory} (hm : Memory.wfFrom lo m = true) :
    Memory.wfFrom lo' m = true := by
  cases m with
  | nil => rfl
  | cons e rest =>
    obtain ⟨k, v⟩ := e
    rw [Memory.wfFrom_cons] at hm ⊢
    exact ⟨h.trans hm.1, hm.2⟩

/-- Nothing is listed below the bound. -/
theorem Memory.lookup_below {lo a : Nat} (h : a < lo) {m : Memory} (hm : Memory.wfFrom lo m = true) :
    Memory.lookup m a = 0#16 := by
  induction m generalizing lo with
  | nil => rfl
  | cons e rest ih =>
    obtain ⟨k, v⟩ := e
    rw [Memory.wfFrom_cons] at hm
    have hk : k ≠ a := by omega
    simp only [Memory.lookup, hk, if_false]
    exact ih (by omega) hm.2.2.2

/-- An insertion keeps the canonical form. -/
theorem Memory.insert_wfFrom {lo a : Nat} {v : Word} (hlo : lo ≤ a) (ha : a < memorySize) {m : Memory}
    (hm : Memory.wfFrom lo m = true) : Memory.wfFrom lo (Memory.insert m a v) = true := by
  induction m generalizing lo with
  | nil =>
    unfold Memory.insert
    split
    · rfl
    · next hv => exact Memory.wfFrom_cons.2 ⟨hlo, ha, hv, rfl⟩
  | cons e rest ih =>
    obtain ⟨k, w⟩ := e
    have hm' := Memory.wfFrom_cons.1 hm
    simp only [Memory.insert]
    split
    · split
      · exact hm
      · next hak hv =>
        exact Memory.wfFrom_cons.2 ⟨hlo, ha, hv, Memory.wfFrom_cons.2 ⟨by omega, hm'.2⟩⟩
    · split
      · next hak =>
        split
        · exact Memory.wfFrom_mono (by omega) hm'.2.2.2
        · next hv => exact Memory.wfFrom_cons.2 ⟨hlo, ha, hv, hak ▸ hm'.2.2.2⟩
      · next h1 h2 =>
        exact Memory.wfFrom_cons.2 ⟨hm'.1, hm'.2.1, hm'.2.2.1, ih (by omega) hm'.2.2.2⟩

/-- The cell written holds the value (for a memory in canonical form). -/
theorem Memory.lookup_insert_same {lo a : Nat} {v : Word} {m : Memory} (hm : Memory.wfFrom lo m = true) :
    Memory.lookup (Memory.insert m a v) a = v := by
  induction m generalizing lo with
  | nil =>
    unfold Memory.insert
    split
    · next h => exact h.symm
    · simp [Memory.lookup]
  | cons e rest ih =>
    obtain ⟨k, w⟩ := e
    have hm' := Memory.wfFrom_cons.1 hm
    simp only [Memory.insert]
    split
    · split
      · next hak hv =>
        have hk : k ≠ a := by omega
        simp only [Memory.lookup, hk, if_false]
        rw [Memory.lookup_below (by omega) hm'.2.2.2, hv]
      · simp [Memory.lookup]
    · split
      · next hak =>
        split
        · next hv => rw [Memory.lookup_below (by omega) hm'.2.2.2, hv]
        · simp [Memory.lookup]
      · next h1 h2 =>
        have hk : k ≠ a := fun e => h2 e.symm
        simp only [Memory.lookup, hk, if_false]
        exact ih hm'.2.2.2

/-- Every other cell is left alone, whatever the form of the memory. -/
theorem Memory.lookup_insert_ne {a b : Nat} {v : Word} (h : b ≠ a) (m : Memory) :
    Memory.lookup (Memory.insert m a v) b = Memory.lookup m b := by
  induction m with
  | nil =>
    unfold Memory.insert
    split
    · rfl
    · simp [Memory.lookup, h.symm]
  | cons e rest ih =>
    obtain ⟨k, w⟩ := e
    simp only [Memory.insert]
    split
    · split
      · rfl
      · simp [Memory.lookup, h.symm]
    · split
      · next hak =>
        have hk : k ≠ b := by omega
        split <;> simp [Memory.lookup, h.symm, hk]
      · simp only [Memory.lookup, ih]

/-! ## The same laws in terms of addresses -/

theorem Memory.write_wf {m : Memory} (hm : Memory.wf m = true) (addr v : Word) :
    Memory.wf (Memory.write m addr v) = true :=
  Memory.insert_wfFrom (Nat.zero_le _) addr.isLt hm

theorem Memory.read_write_same {m : Memory} (hm : Memory.wf m = true) (addr v : Word) :
    Memory.read (Memory.write m addr v) addr = v :=
  Memory.lookup_insert_same hm

theorem Memory.read_write_ne {addr b : Word} (h : b ≠ addr) (m : Memory) (v : Word) :
    Memory.read (Memory.write m addr v) b = Memory.read m b :=
  Memory.lookup_insert_ne (fun e => h (BitVec.eq_of_toNat_eq e)) m

/-- Read after write at any two addresses. -/
theorem Memory.read_write {m : Memory} (hm : Memory.wf m = true) (addr b v : Word) :
    Memory.read (Memory.write m addr v) b = if b = addr then v else Memory.read m b := by
  split
  · next h => rw [h]; exact Memory.read_write_same hm addr v
  · next h => exact Memory.read_write_ne h m v

theorem Memory.load_wf {m : Memory} (hm : Memory.wf m = true) (addr : Word) (ws : List Word) :
    Memory.wf (Memory.load m addr ws) = true := by
  induction ws generalizing m addr with
  | nil => exact hm
  | cons w rest ih => exact ih (Memory.write_wf hm addr w) _

/-- A canonical memory lists only addresses inside the space. -/
theorem Memory.lookup_outside {lo a : Nat} (h : memorySize ≤ a) {m : Memory} (hm : Memory.wfFrom lo m = true) :
    Memory.lookup m a = 0#16 := by
  induction m generalizing lo with
  | nil => rfl
  | cons e rest ih =>
    obtain ⟨k, v⟩ := e
    have hm' := Memory.wfFrom_cons.1 hm
    have hk : k ≠ a := by omega
    simp only [Memory.lookup, hk, if_false]
    exact ih hm'.2.2.2

end Sys2Proof.Machine
end

