-- ==== Sys2Proof/Laws/Operands.lean ====
section
/-!
SUPPORT. Sign extension as arithmetic, and the spec's way of writing an address or a byte as the model's (00_scope.md R6,
20_memory.md R47).
-/

namespace Sys2Proof.Machine

open Sys2Proof

/-- Adding a sign-extended field is moving by its two's-complement value, modulo 65536. -/
theorem wordsFrom_toInt {n : Nat} (base : Word) (f : BitVec n) : wordsFrom base f.toInt = base + sext f := by
  unfold wordsFrom
  rw [BitVec.ofInt_add]
  congr 1
  simp

theorem lowByte_eq (w : Word) : lowByte w = lowBits w := by
  apply BitVec.eq_of_toNat_eq
  simp [lowByte, lowBits, BitVec.extractLsb'_toNat]

theorem highByte_eq (w : Word) : highByte w = highBits w := by
  apply BitVec.eq_of_toNat_eq
  simp [highByte, highBits, BitVec.extractLsb'_toNat, Nat.shiftRight_eq_div_pow]

/-- The bits of a sign-extended field. -/
theorem sext_getLsbD {n : Nat} (f : BitVec n) (k : Nat) (hk : k < 16) :
    (sext f).getLsbD k = if k < n then f.getLsbD k else f.getLsbD (n - 1) := by
  rw [sext, BitVec.getLsbD_signExtend, BitVec.msb_eq_getLsbD_last]
  simp [hk]

/-- A received character is what the acquisition gives. -/
theorem received_iff (r : Answer) (c : Word) :
    Received r c ↔ ∃ b, answerByte r = some b ∧ translateCr b ≠ 0x03#8 ∧ c = zextByte (translateCr b) := by
  constructor
  · rintro (⟨b, rfl, hb, rfl⟩ | ⟨rfl, rfl⟩)
    · refine ⟨b, rfl, ?_, ?_⟩
      · unfold translateCr
        split
        · decide
        · exact hb
      · unfold translateCr
        split
        · rfl
        · apply BitVec.eq_of_toNat_eq
          simp [zextByte]
    · exact ⟨0x00#8, rfl, by decide, by decide⟩
  · rintro ⟨b, hb, h3, rfl⟩
    cases r with
    | byte b' =>
      simp only [answerByte, Option.some.injEq] at hb
      subst hb
      refine .inl ⟨b', rfl, ?_, ?_⟩
      · rintro rfl
        exact h3 (by decide)
      · unfold translateCr
        split
        · rfl
        · apply BitVec.eq_of_toNat_eq
          simp [zextByte]
    | noByte =>
      simp only [answerByte, Option.some.injEq] at hb
      subst hb
      exact .inr ⟨rfl, by decide⟩
    | unavailable => simp [answerByte] at hb

end Sys2Proof.Machine
end

