-- ==== Sys2Proof/Laws/Ops.lean ====
section
/-!
SUPPORT. For each shared operation, once, everything it can do: acquisition, the bus, going on after a read
(20_memory.md R33 to R36).
-/

namespace Sys2Proof.Machine

open Sys2Proof

/-! ## Acquisition (20_memory.md R36) -/

theorem acquire_waiting (s : State) : acquire s = .waiting ↔ s.input = [] := by
  unfold acquire
  split
  · next h => simp [h]
  · next r rest h =>
    simp only [h]
    split
    · simp
    · split <;> simp

/-- A word comes from one answer, consumed. -/
theorem acquire_value {s s1 : State} {v : Word} (h : acquire s = .value v s1) :
    ∃ r rest b, s.input = r :: rest ∧ answerByte r = some b ∧ translateCr b ≠ 0x03#8 ∧ v = zextByte (translateCr b)
      ∧ s1 = consumeAnswer rest s := by
  unfold acquire at h
  split at h
  · simp at h
  · next r rest hin =>
    split at h
    · simp at h
    · next b hb =>
      split at h
      · simp at h
      · next hc =>
        simp only [ReadResult.value.injEq] at h
        exact ⟨r, rest, b, hin, hb, hc, h.1.symm, h.2.symm⟩

/-- The run ends on an unavailable terminal or on the byte 0x03, one answer consumed. -/
theorem acquire_ended {s s1 : State} (h : acquire s = .ended s1) :
    (∃ rest, s.input = .unavailable :: rest
        ∧ s1 = terminate .terminalUnavailable (report .terminalUnavailable (consumeAnswer rest s)))
      ∨ (∃ rest, s.input = .byte 0x03#8 :: rest ∧ s1 = terminate .sentinel (consumeAnswer rest s)) := by
  unfold acquire at h
  split at h
  · simp at h
  · next r rest hin =>
    split at h
    · next hb =>
      simp only [ReadResult.ended.injEq] at h
      left
      cases r <;> simp [answerByte] at hb
      exact ⟨rest, hin, h.symm⟩
    · next b hb =>
      split at h
      · next hc =>
        simp only [ReadResult.ended.injEq] at h
        right
        have hb3 : b = 0x03#8 := by
          unfold translateCr at hc
          split at hc
          · exact absurd hc (by decide)
          · exact hc
        subst hb3
        cases r with
        | byte b' =>
          simp only [answerByte, Option.some.injEq] at hb
          exact ⟨rest, hb ▸ hin, h.symm⟩
        | noByte => exact absurd hb (by decide)
        | unavailable => simp [answerByte] at hb
      · simp at h

/-! ## The bus (20_memory.md R33) -/

theorem memRead_storage {addr : Word} (h : addr ≠ kbdrAddr) (s : State) : memRead addr s = .value (readCell s addr) s := by
  simp [memRead, h]

theorem memRead_keyboard (s : State) : memRead kbdrAddr s = acquire s := by
  simp [memRead]

/-- A read gives a stored word and changes nothing, or is an acquisition. -/
theorem memRead_cases (addr : Word) (s : State) :
    (addr ≠ kbdrAddr ∧ memRead addr s = .value (readCell s addr) s) ∨ (addr = kbdrAddr ∧ memRead addr s = acquire s) := by
  by_cases h : addr = kbdrAddr
  · exact .inr ⟨h, by simp [memRead, h]⟩
  · exact .inl ⟨h, memRead_storage h s⟩

theorem readThen_storage {addr : Word} (h : addr ≠ kbdrAddr) (k : Pending) (f : Word → State → State) (s : State) :
    readThen addr k f s = f (readCell s addr) s := by
  simp [readThen, afterRead, memRead_storage h]

theorem readThen_keyboard (k : Pending) (f : Word → State → State) (s : State) :
    readThen kbdrAddr k f s = acquireThen k f s := by
  simp [readThen, acquireThen, memRead_keyboard]

/-! ## Going on after a read

A property `P` of the states before a read, carried by consuming an answer, leads to a property `Q` of the state after the
instruction, if the continuation and the two ways an acquisition ends the run lead there. -/

/-- What the reads themselves must do for `P` to lead to `Q` through any of them. -/
structure ReadsLead (P Q : State → Prop) : Prop where
  consume : ∀ s r rest, s.input = r :: rest → P s → P (consumeAnswer rest s)
  sentinel : ∀ s rest, P s → s.input = .byte 0x03#8 :: rest → Q (terminate .sentinel (consumeAnswer rest s))
  unavailable : ∀ s rest, P s → s.input = .unavailable :: rest →
    Q (terminate .terminalUnavailable (report .terminalUnavailable (consumeAnswer rest s)))
  wait : ∀ s k, waitsForCharacter k → P s → Q (setPending (some k) s)

/-- The four ways an acquisition goes on. -/
theorem acquireThen_cases (k : Pending) (f : Word → State → State) (s : State) :
    (∃ r rest b, s.input = r :: rest ∧ acquireThen k f s = f (zextByte (translateCr b)) (consumeAnswer rest s))
      ∨ (∃ rest, s.input = .unavailable :: rest ∧ acquireThen k f s
          = terminate .terminalUnavailable (report .terminalUnavailable (consumeAnswer rest s)))
      ∨ (∃ rest, s.input = .byte 0x03#8 :: rest ∧ acquireThen k f s = terminate .sentinel (consumeAnswer rest s))
      ∨ (s.input = [] ∧ acquireThen k f s = setPending (some k) s) := by
  unfold acquireThen
  cases h : acquire s with
  | value v s1 =>
    obtain ⟨r, rest, b, hin, -, -, rfl, rfl⟩ := acquire_value h
    exact .inl ⟨r, rest, b, hin, rfl⟩
  | ended s1 =>
    obtain ⟨rest, hin, rfl⟩ | ⟨rest, hin, rfl⟩ := acquire_ended h
    · exact .inr (.inl ⟨rest, hin, rfl⟩)
    · exact .inr (.inr (.inl ⟨rest, hin, rfl⟩))
  | waiting => exact .inr (.inr (.inr ⟨(acquire_waiting s).1 h, rfl⟩))

theorem acquireThen_leads {P Q : State → Prop} (hPQ : ReadsLead P Q) {k : Pending} (hk : waitsForCharacter k)
    {f : Word → State → State} (hf : ∀ v s, P s → Q (f v s)) {s : State} (hs : P s) : Q (acquireThen k f s) := by
  obtain ⟨r, rest, b, hin, h⟩ | ⟨rest, hin, h⟩ | ⟨rest, hin, h⟩ | ⟨-, h⟩ := acquireThen_cases k f s <;> rw [h]
  · exact hf _ _ (hPQ.consume s r rest hin hs)
  · exact hPQ.unavailable s rest hs hin
  · exact hPQ.sentinel s rest hs hin
  · exact hPQ.wait s k hk hs

theorem readThen_leads {P Q : State → Prop} (hPQ : ReadsLead P Q) (addr : Word) {k : Pending}
    (hk : waitsForCharacter k) {f : Word → State → State} (hf : ∀ v s, P s → Q (f v s)) {s : State} (hs : P s) :
    Q (readThen addr k f s) := by
  by_cases h : addr = kbdrAddr
  · subst h; rw [readThen_keyboard]; exact acquireThen_leads hPQ hk hf hs
  · rw [readThen_storage h]; exact hf _ s hs

end Sys2Proof.Machine
end

