-- ==== Sys2Proof/Laws/PerInstr.lean ====
section
/-!
SUPPORT. The per-instruction law: the top four bits of an instruction's word are its opcode's code (30_encoding.md R51,
R55).
-/

namespace Sys2Proof.Laws.OpcodeField

open Sys2Proof

/-- Bits 15:12 of the word select the instruction's opcode. -/
def Statement (i : Instr) : Prop := fieldOpcode (encode i) = opcodeCode (opcodeOf i)

theorem br (n z p : Bool) (off9 : BitVec 9) : Statement (.br n z p off9) := (fields_br _ n z p off9).1
theorem addReg (a b sr2 : Reg) : Statement (.addReg a b sr2) := (fields_rrr _ a b sr2 _).1
theorem addImm (a b : Reg) (imm5 : BitVec 5) : Statement (.addImm a b imm5) := (fields_rri _ a b imm5).1
theorem ld (a : Reg) (off9 : BitVec 9) : Statement (.ld a off9) := (fields_ro _ a off9).1
theorem st (a : Reg) (off9 : BitVec 9) : Statement (.st a off9) := (fields_ro _ a off9).1
theorem jsrr (b : Reg) : Statement (.jsrr b) := (fields_jr _ _ b _).1
theorem jsr (off11 : BitVec 11) : Statement (.jsr off11) := (fields_j _ off11).1
theorem andReg (a b sr2 : Reg) : Statement (.andReg a b sr2) := (fields_rrr _ a b sr2 _).1
theorem andImm (a b : Reg) (imm5 : BitVec 5) : Statement (.andImm a b imm5) := (fields_rri _ a b imm5).1
theorem ldr (a b : Reg) (off6 : BitVec 6) : Statement (.ldr a b off6) := (fields_rro _ a b off6).1
theorem str (a b : Reg) (off6 : BitVec 6) : Statement (.str a b off6) := (fields_rro _ a b off6).1
theorem rti : Statement .rti := fields_n _ _
theorem not (a b : Reg) : Statement (.not a b) := (fields_rro _ a b _).1
theorem ldi (a : Reg) (off9 : BitVec 9) : Statement (.ldi a off9) := (fields_ro _ a off9).1
theorem sti (a : Reg) (off9 : BitVec 9) : Statement (.sti a off9) := (fields_ro _ a off9).1
theorem jmp (b : Reg) : Statement (.jmp b) := (fields_r _ _ b _).1
theorem invalid : Statement .invalid := fields_n _ _
theorem lea (a : Reg) (off9 : BitVec 9) : Statement (.lea a off9) := (fields_ro _ a off9).1
theorem trap (vect8 : Byte) : Statement (.trap vect8) := (fields_t _ _ vect8).1
theorem getc : Statement .getc := (fields_t _ _ _).1
theorem out : Statement .out := (fields_t _ _ _).1
theorem puts : Statement .puts := (fields_t _ _ _).1
theorem inp : Statement .inp := (fields_t _ _ _).1
theorem putsp : Statement .putsp := (fields_t _ _ _).1
theorem halt : Statement .halt := (fields_t _ _ _).1

end Sys2Proof.Laws.OpcodeField
end

