-- ==== Sys2Proof/Laws/Reads.lean ====
section
/-!
SUPPORT. The shared reads, the store and the link in the words of Safety.lean: what an acquisition gives by its answer, and
that every instruction that goes on after a read has the outcome `ReadsCharacter` or `LoadsFrom` describes (20_memory.md
R33, R34, R36).
-/

namespace Sys2Proof.Machine

open Sys2Proof

/-! ## The three answers -/

theorem acquire_received {s : State} {r : Answer} {rest : List Answer} {c : Word} (h : s.input = r :: rest)
    (hc : Received r c) : acquire s = .value c (consumeAnswer rest s) := by
  obtain ⟨b, hb, h3, rfl⟩ := (received_iff r c).1 hc
  simp [acquire, h, hb, h3]

theorem acquire_sentinel {s : State} {rest : List Answer} (h : s.input = .byte 0x03#8 :: rest) :
    acquire s = .ended (terminate .sentinel (consumeAnswer rest s)) := by
  simp [acquire, h, answerByte, translateCr]

theorem acquire_unavailable {s : State} {rest : List Answer} (h : s.input = .unavailable :: rest) :
    acquire s = .ended (terminate .terminalUnavailable (report .terminalUnavailable (consumeAnswer rest s))) := by
  simp [acquire, h, answerByte]

/-- With no answer yet, only the mark is set. -/
theorem acquireThen_waiting {s : State} (h : s.input = []) (k : Pending) (f : Word → State → State) :
    acquireThen k f s = setPending (some k) s := by
  simp [acquireThen, (acquire_waiting s).2 h, afterRead]

/-- With an answer there, the mark is not looked at. -/
theorem acquireThen_answer {s : State} (h : s.input ≠ []) (k k' : Pending) (f : Word → State → State) :
    acquireThen k f s = acquireThen k' f s := by
  have hw : acquire s ≠ .waiting := fun e => h ((acquire_waiting s).1 e)
  unfold acquireThen
  cases ha : acquire s with
  | value v s1 => rfl
  | ended s1 => rfl
  | waiting => exact absurd ha hw

/-! ## The outcomes -/

/-- An instruction that acquires a character and goes on with `f` has the outcome `ReadsCharacter` describes. -/
theorem readsCharacter_acquireThen (k : Pending) (f : Word → State → State) (done : Word → List Answer → State → Prop)
    (u : State) (h : ∀ c rest, done c rest (f c (consumeAnswer rest u))) :
    ReadsCharacter k done u (.next (acquireThen k f u)) := by
  refine ⟨?_, ?_, ?_, ?_⟩
  · intro r rest c hin hc
    refine ⟨_, rfl, ?_⟩
    simp only [acquireThen, acquire_received hin hc, afterRead]
    exact h c rest
  · intro rest hin
    refine ⟨_, rfl, ?_⟩
    simp only [acquireThen, acquire_sentinel hin, afterRead]
    exact ⟨⟨rfl, fun _ _ => rfl, rfl, rfl, fun _ => rfl, rfl⟩, ⟨rfl, rfl⟩, rfl, rfl⟩
  · intro rest hin
    refine ⟨_, rfl, ?_⟩
    simp only [acquireThen, acquire_unavailable hin, afterRead]
    exact ⟨⟨rfl, fun _ _ => rfl, rfl, rfl, fun _ => rfl, rfl⟩, ⟨rfl, rfl⟩, rfl, rfl⟩
  · intro hin
    rw [acquireThen_waiting hin]
    rfl

/-- A character written to a register by the common end of the flag setters. -/
theorem writeResult_consumeAnswer (a : Reg) (c : Word) (rest : List Answer) (s : State) :
    ResultIn a c s (writeResult a c (consumeAnswer rest s)) ∧ ConsumesOne rest s (writeResult a c (consumeAnswer rest s))
      ∧ KeepsOutput s (writeResult a c (consumeAnswer rest s))
      ∧ KeepsControl s (writeResult a c (consumeAnswer rest s)) := by
  obtain ⟨h1, _, h3, h4⟩ := writeResult_onlyResultIn a c (consumeAnswer rest s)
  exact ⟨h1, ⟨rfl, rfl⟩, h3, h4⟩

/-- LD, LDR and the data read of LDI. -/
theorem loadsFrom_readThen (a : Reg) (ea : Word) (s : State) :
    LoadsFrom a ea s (.next (readThen ea (.load a) (writeResult a) s)) := by
  constructor
  · intro h
    rw [readThen_storage h]
    exact ⟨_, rfl, writeResult_onlyResultIn a _ s⟩
  · rintro rfl
    exact readsCharacter_acquireThen _ _ _ _ fun c rest => writeResult_consumeAnswer a c rest s

/-- The whole effect of a store. -/
theorem stored_memWrite {s : State} (h : Memory.wf s.mem = true) (ea v : Word) : Stored ea v s (memWrite ea v s) :=
  ⟨Memory.read_write_same h _ _, fun _ ha => Memory.read_write_ne ha _ _, fun _ _ => rfl, rfl, rfl, ⟨rfl, rfl⟩, rfl, rfl⟩

/-- A character is a byte, so as an address it is none of the device registers'. -/
theorem Received.ne_kbdrAddr {r : Answer} {c : Word} (h : Received r c) : c ≠ kbdrAddr := by
  obtain ⟨b, -, -, rfl⟩ := (received_iff r c).1 h
  intro e
  have h1 := congrArg BitVec.toNat e
  have h2 := (translateCr b).isLt
  simp only [zextByte, BitVec.toNat_setWidth, kbdrAddr, BitVec.toNat_ofNat] at h1
  omega

/-- JSR, JSRR and TRAP keep every register but R7. -/
theorem linkR7_keepsRegs (s : State) : KeepsRegsExcept [7#3] s (linkR7 s) := by
  intro r hr
  exact getReg_setReg_ne _ _ _ _ (by simpa using hr)

/-- The trap services' argument is R0, which the link does not touch. -/
theorem getReg_zero_linkR7 (s : State) : getReg (linkR7 s) 0#3 = getReg s 0#3 :=
  getReg_setReg_ne _ _ _ _ (by decide)

/-- An abort's status is not zero, whatever it is. -/
theorem abortStatus_ne_zero : Config.abortStatus ≠ 0 := by
  unfold Config.abortStatus
  cases Config.abortCode <;> simp [NonzeroInt.toInt]
  omega

end Sys2Proof.Machine
end

