-- ==== Sys2Proof/Laws/Step.lean ====
section
/-!
SUPPORT. Everything a step can do (10_state.md R23): one inversion lemma, and the executor's answer as a state.
-/

namespace Sys2Proof.Machine

open Sys2Proof

/-- The executor always answers a next state. -/
theorem exec_next (i : Instr) (s : State) : ∃ t, exec i s = .next t := by
  cases i <;> exact ⟨_, rfl⟩

/-- The cases of a step that answers a next state: an unfinished instruction goes on; a fetched word is executed; the
fetch ends the run; or the fetch waits and nothing changes. -/
theorem step_cases {s t : State} (h : step s = .next t) :
    s.run = .running ∧
      ((∃ k, s.pending = some k ∧ t = resumePending k (setPending none s))
        ∨ (s.pending = none ∧ ∃ ir s1, fetch s = .value ir s1 ∧ exec (decode ir) (advancePc s1) = .next t)
        ∨ (s.pending = none ∧ fetch s = .ended t)
        ∨ (s.pending = none ∧ fetch s = .waiting ∧ t = s)) := by
  unfold step at h
  split at h
  · simp at h
  · next hrun =>
    refine ⟨hrun, ?_⟩
    split at h
    · next k hk =>
      simp only [resume, Host.Outcome.next.injEq] at h
      exact .inl ⟨k, hk, h.symm⟩
    · next hp =>
      split at h
      · next ir s1 hf => exact .inr (.inl ⟨hp, ir, s1, hf, h⟩)
      · next s1 hf =>
        simp only [Host.Outcome.next.injEq] at h
        exact .inr (.inr (.inl ⟨hp, h ▸ hf⟩))
      · next hf =>
        simp only [Host.Outcome.next.injEq] at h
        exact .inr (.inr (.inr ⟨hp, hf, h.symm⟩))

/-- A running core with no unfinished instruction and its pc on a storage cell executes the word in that cell. -/
theorem step_storage {s : State} (hrun : s.run = .running) (hp : s.pending = none) (hpc : s.pc ≠ kbdrAddr) :
    step s = exec (decode (readCell s s.pc)) (advancePc s) := by
  simp [step, hrun, hp, fetch, memRead_storage hpc]

/-- A running core with an unfinished instruction goes on with it. -/
theorem step_pending {s : State} {k : Pending} (hrun : s.run = .running) (hp : s.pending = some k) :
    step s = .next (resumePending k (setPending none s)) := by
  simp only [step, hrun, hp, resume]

/-- A terminated core has no step. -/
theorem step_terminated {s : State} {reason : TermReason} {status : Int} (h : s.run = .terminated reason status) :
    step s = .fault (.terminated reason status) := by
  simp [step, h]

/-- `withFetchWord` does what it says: the next step executes the word. -/
theorem step_withFetchWord (s : State) (hwf : Memory.wf s.mem = true) (nbits w : Nat) :
    step (s.withFetchWord nbits w)
      = exec (decode (BitVec.ofNat 16 w)) (advancePc (s.withFetchWord nbits w)) := by
  have hpc : (s.withFetchWord nbits w).pc ≠ kbdrAddr := by
    simp only [State.withFetchWord, placeAtPc, memWrite_pc, readyToFetch]
    split
    · next h => rw [h]; decide
    · next h => exact h
  have hcell : readCell (s.withFetchWord nbits w) (s.withFetchWord nbits w).pc = BitVec.ofNat 16 w :=
    Memory.read_write_same hwf _ _
  rw [step_storage rfl rfl hpc, hcell]

end Sys2Proof.Machine
end

