-- ==== Sys2Proof/Laws/Strings.lean ====
section
/-!
SUPPORT. The string services: the loop word by word without its bound, the induction over it, and what it does to words
held in storage (43_system.md R103, R105).
-/

namespace Sys2Proof.Machine

open Sys2Proof

/-! ## One word of the loop -/

/-- Past a storage cell one word less can be read. -/
theorem stringFuel_storage {addr : Word} (h : addr ≠ kbdrAddr) {s t : State} (ht : t.input = s.input) :
    stringFuel addr s = stringFuel (addr + 1#16) t + 1 := by
  have hne : addr.toNat ≠ 65026 := fun e => h (BitVec.eq_of_toNat_eq e)
  have := addr.isLt
  simp only [stringFuel, ht, kbdrAddr, BitVec.toNat_sub, BitVec.toNat_add, BitVec.toNat_ofNat]
  omega

/-- At the keyboard one answer less is there, and a whole turn of the space begins. -/
theorem stringFuel_keyboard {s t : State} {r : Answer} (ht : s.input = r :: t.input) :
    stringFuel kbdrAddr s = stringFuel (kbdrAddr + 1#16) t + 1 := by
  simp [stringFuel, ht, kbdrAddr, memorySize]
  omega

/-- The loop of R103 and R105, one word of it, at any address: the bound of the definition never shows. -/
theorem stringFrom_read (k : Word → Pending) {put : Word → State → State} (hput : ∀ w s, (put w s).input = s.input)
    (addr : Word) (s : State) :
    stringFrom k put addr s
      = readThen addr (k addr)
          (fun w s1 => if w = 0x0000#16 then s1 else stringFrom k put (addr + 1#16) (put w s1)) s := by
  by_cases h : addr = kbdrAddr
  · subst h
    obtain ⟨n, hn⟩ : ∃ n, stringFuel kbdrAddr s = n + 1 := ⟨_, rfl⟩
    rw [stringFrom, hn, stringLoop, readThen_keyboard, readThen_keyboard]
    unfold acquireThen
    cases ha : acquire s with
    | waiting => rfl
    | ended s1 => rfl
    | value v s1 =>
      obtain ⟨r, rest, -, hin, -, -, -, rfl⟩ := acquire_value ha
      have hf : n = stringFuel (kbdrAddr + 1#16) (put v (consumeAnswer rest s)) := by
        have := stringFuel_keyboard (s := s) (t := put v (consumeAnswer rest s)) (r := r) (by rw [hput]; exact hin)
        omega
      simp only [afterRead, stringFrom, hf]
  · rw [readThen_storage h, stringFrom, stringFuel_storage h (t := put (readCell s addr) s) (hput _ _), stringLoop,
      readThen_storage h]
    rfl

/-- Over a storage cell. -/
theorem stringFrom_storage (k : Word → Pending) {put : Word → State → State}
    (hput : ∀ w s, (put w s).input = s.input) {addr : Word} (h : addr ≠ kbdrAddr) (s : State) :
    stringFrom k put addr s
      = if readCell s addr = 0x0000#16 then s else stringFrom k put (addr + 1#16) (put (readCell s addr) s) := by
  rw [stringFrom_read k hput, readThen_storage h]

/-- At the keyboard. -/
theorem stringFrom_keyboard (k : Word → Pending) {put : Word → State → State}
    (hput : ∀ w s, (put w s).input = s.input) (s : State) :
    stringFrom k put kbdrAddr s
      = acquireThen (k kbdrAddr)
          (fun w s1 => if w = 0x0000#16 then s1 else stringFrom k put (kbdrAddr + 1#16) (put w s1)) s := by
  rw [stringFrom_read k hput, readThen_keyboard]

/-- The induction over the loop: a claim that each word's read carries, from the words after it. -/
theorem stringFrom_induction {put : Word → State → State} (hput : ∀ w s, (put w s).input = s.input)
    {C : Word → State → Prop}
    (storage : ∀ addr s, addr ≠ kbdrAddr →
      (readCell s addr ≠ 0x0000#16 → C (addr + 1#16) (put (readCell s addr) s)) → C addr s)
    (keyboard : ∀ s, (∀ r rest c, s.input = r :: rest → C (kbdrAddr + 1#16) (put c (consumeAnswer rest s))) →
      C kbdrAddr s)
    (addr : Word) (s : State) : C addr s := by
  generalize hn : stringFuel addr s = n
  induction n generalizing addr s with
  | zero => exact absurd hn (Nat.succ_ne_zero _)
  | succ n ih =>
    by_cases h : addr = kbdrAddr
    · subst h
      refine keyboard s fun r rest c hin => ih _ _ ?_
      have := stringFuel_keyboard (s := s) (t := put c (consumeAnswer rest s)) (r := r) (by rw [hput]; exact hin)
      omega
    · refine storage addr s h fun _ => ih _ _ ?_
      have := stringFuel_storage h (t := put (readCell s addr) s) (hput _ _)
      omega

/-- The loop, when putting characters keeps `P` and a finished string is in `Q`. -/
theorem stringFrom_leads {P Q : State → Prop} (hPQ : ReadsLead P Q) (hQ : ∀ s, P s → Q s) {k : Word → Pending}
    (hk : waitsForCharacter (k kbdrAddr)) {put : Word → State → State} (hput : ∀ w s, P s → P (put w s))
    (hin : ∀ w s, (put w s).input = s.input) (addr : Word) {s : State} (hs : P s) : Q (stringFrom k put addr s) := by
  revert hs
  refine stringFrom_induction hin (C := fun addr s => P s → Q (stringFrom k put addr s)) ?_ ?_ addr s
  · intro addr s h ih hs
    rw [stringFrom_storage k hin h]
    split
    · exact hQ s hs
    · next h0 => exact ih h0 (hput _ s hs)
  · intro s ih hs
    rw [stringFrom_keyboard k hin]
    obtain ⟨r, rest, b, hi, h⟩ | ⟨rest, hi, h⟩ | ⟨rest, hi, h⟩ | ⟨-, h⟩ := acquireThen_cases (k kbdrAddr)
      (fun w s1 => if w = 0x0000#16 then s1 else stringFrom k put (kbdrAddr + 1#16) (put w s1)) s <;> rw [h]
    · have hc := hPQ.consume s r rest hi hs
      split
      · exact hQ _ hc
      · exact ih r rest _ hi (hput _ _ hc)
    · exact hPQ.unavailable s rest hs hi
    · exact hPQ.sentinel s rest hs hi
    · exact hPQ.wait s _ hk hs

/-! ## Words held in storage -/

/-- A string is in memory, whatever else differs. -/
theorem HoldsWords.of_mem {s : State} (t : State) (h : t.mem = s.mem) {ws : List Word} {addr : Word}
    (hs : HoldsWords s addr ws) : HoldsWords t addr ws := by
  induction ws generalizing addr with
  | nil => trivial
  | cons w ws ih =>
    obtain ⟨h1, h2, h3, h4⟩ := hs
    exact ⟨h1, h2, by rw [readCell, h]; exact h3, ih h4⟩

theorem HoldsString.of_mem {s : State} (t : State) (h : t.mem = s.mem) {ws : List Word} {addr : Word}
    (hs : HoldsString s addr ws) : HoldsString t addr ws :=
  ⟨hs.1.of_mem t h, hs.2.1, by rw [readCell, h]; exact hs.2.2⟩

/-- The loop over words that are all stored and not zero emits their bytes and stands at the address after them. -/
theorem stringFrom_words (k : Word → Pending) (bytes : Word → List Byte) (ws : List Word) (addr : Word) (s : State)
    (h : HoldsWords s addr ws) :
    stringFrom k (fun w s => emitAll (bytes w) s) addr s
      = stringFrom k (fun w s => emitAll (bytes w) s) (addr + BitVec.ofNat 16 ws.length)
          (emitAll (ws.flatMap bytes) s) := by
  induction ws generalizing addr s with
  | nil => simp [emitAll]
  | cons w ws ih =>
    obtain ⟨h1, h2, h3, h4⟩ := h
    rw [stringFrom_storage k (put := fun w s => emitAll (bytes w) s) (fun _ _ => rfl) h1, if_neg (by rw [h3]; exact h2), h3,
      ih _ (emitAll (bytes w) s) (HoldsWords.of_mem (s := s) (emitAll (bytes w) s) rfl h4)]
    congr 1
    · apply BitVec.eq_of_toNat_eq
      simp
      omega
    · simp [emitAll]

/-- The loop over a string that ends: its bytes and nothing else. -/
theorem stringFrom_string (k : Word → Pending) (bytes : Word → List Byte) (ws : List Word) (addr : Word) (s : State)
    (h : HoldsString s addr ws) :
    stringFrom k (fun w s => emitAll (bytes w) s) addr s = emitAll (ws.flatMap bytes) s := by
  rw [stringFrom_words _ _ _ _ _ h.1, stringFrom_storage k (put := fun w s => emitAll (bytes w) s) (fun _ _ => rfl) h.2.1]
  exact if_pos h.2.2

theorem putWord_eq : putWord = fun w s => emitAll [lowBits w] s := by
  funext w s
  simp [putWord, emit, emitAll, lowByte_eq]

theorem packedByte_append (w : Word) : packedByte (lowByte w) ++ packedByte (highByte w) = packedBytes w := by
  rw [lowByte_eq, highByte_eq]
  unfold packedBytes packedByte
  generalize Config.putspSkipZeroByte = skip
  cases skip
  · simp
  · by_cases h1 : lowBits w = 0#8 <;> by_cases h2 : highBits w = 0#8 <;> simp [h1, h2]

theorem putPackedWord_eq : putPackedWord = fun w s => emitAll (packedBytes w) s := by
  funext w s
  simp [putPackedWord, packedByte_append]

theorem flatMap_lowBits (ws : List Word) : ws.flatMap (fun w => [lowBits w]) = ws.map lowBits := by
  induction ws <;> simp_all

end Sys2Proof.Machine
end

