-- ==== Sys2Proof/Laws/Rules.lean ====
section
/-!
SUPPORT. One induction for the rules of the whole machine: if the shared operations carry a property of states, every
instruction and every step does (10_state.md R23).
-/

namespace Sys2Proof.Machine

open Sys2Proof

/-- The operations every instruction may use keep `P`, and the end of an instruction leads from `P` to `Q`. -/
structure Carries (P Q : State → Prop) : Prop where
  reads : ReadsLead P Q
  done : ∀ s, P s → Q s
  reg : ∀ r v s, P s → P (setReg r v s)
  pc : ∀ t s, P s → P (setPc t s)
  flags : ∀ v s, P s → P (setcc v s)

/-- Emitting keeps `P`. -/
def CarriesText (P : State → Prop) : Prop := ∀ bytes s, P s → P (emitAll bytes s)

/-- A store keeps `P`. -/
def CarriesStore (P : State → Prop) : Prop := ∀ addr v s, P s → P (memWrite addr v s)

/-- The ends of HALT, INVALID and RTI lead from `P` to `Q`, for those of them that `i` is. -/
structure EndsLead (i : Instr) (P Q : State → Prop) : Prop where
  halt : i = .halt → ∀ s, P s → Q (terminate .halt s)
  invalid : i = .invalid → ∀ s, P s →
    Q (terminate .invalidOpcode (report (.invalidOpcode (opcodeCode .invalid)) s))
  rti : i = .rti → ∀ s, P s → Q (terminate .rtiUnimplemented (report .rtiUnimplemented s))

namespace Carries

variable {P Q : State → Prop}

theorem result (h : Carries P Q) (a : Reg) (v : Word) (s : State) (hs : P s) : Q (writeResult a v s) :=
  h.done _ (h.flags _ _ (h.reg _ _ _ hs))

theorem link (h : Carries P Q) {s : State} (hs : P s) : P (linkR7 s) := h.reg _ _ _ hs

theorem pointer (h : Carries P Q) (a : Reg) (v : Word) (s : State) (hs : P s) : Q (loadThroughPointer a v s) :=
  readThen_leads h.reads _ (by exact trivial) (h.result a) hs

theorem echo (h : Carries P Q) (ht : CarriesText P) (c : Word) (s : State) (hs : P s) : Q (finishIn c s) :=
  h.result _ _ _ (ht _ _ hs)

theorem string (h : Carries P Q) (ht : CarriesText P) (addr : Word) {s : State} (hs : P s) : Q (putsFrom addr s) :=
  stringFrom_leads h.reads h.done (by exact rfl) (fun _ s => ht _ s) (fun _ _ => rfl) _ hs

theorem packedString (h : Carries P Q) (ht : CarriesText P) (addr : Word) {s : State} (hs : P s) :
    Q (putspFrom addr s) :=
  stringFrom_leads h.reads h.done (by exact rfl) (fun _ s => ht _ s) (fun _ _ => rfl) _ hs

/-- Every instruction leads from `P` to `Q`; emitting, storing and ending the run have to be shown to only for an
instruction that does so. -/
theorem exec (h : Carries P Q) {i : Instr} (ht : emits i = true → CarriesText P) (hw : stores i = true → CarriesStore P)
    (hend : EndsLead i P Q) {s t : State} (hs : P s) (he : exec i s = .next t) : Q t := by
  cases i with
  | br n z p off9 =>
    cases he
    split
    · exact h.done _ (h.pc _ _ hs)
    · exact h.done _ hs
  | addReg a b sr2 => cases he; exact h.result _ _ _ hs
  | addImm a b imm5 => cases he; exact h.result _ _ _ hs
  | ld a off9 => cases he; exact readThen_leads h.reads _ (by exact trivial) (h.result a) hs
  | st a off9 => cases he; exact h.done _ (hw rfl _ _ _ hs)
  | jsrr b => cases he; exact h.done _ (h.pc _ _ (h.link hs))
  | jsr off11 => cases he; exact h.done _ (h.pc _ _ (h.link hs))
  | andReg a b sr2 => cases he; exact h.result _ _ _ hs
  | andImm a b imm5 => cases he; exact h.result _ _ _ hs
  | ldr a b off6 => cases he; exact readThen_leads h.reads _ (by exact trivial) (h.result a) hs
  | str a b off6 => cases he; exact h.done _ (hw rfl _ _ _ hs)
  | rti => cases he; exact hend.rti rfl _ hs
  | not a b => cases he; exact h.result _ _ _ hs
  | ldi a off9 => cases he; exact readThen_leads h.reads _ (by exact trivial) (h.pointer a) hs
  | sti a off9 => cases he; exact readThen_leads h.reads _ (by exact trivial) (fun _ s1 h1 => h.done _ (hw rfl _ _ s1 h1)) hs
  | jmp b => cases he; exact h.done _ (h.pc _ _ hs)
  | invalid => cases he; exact hend.invalid rfl _ hs
  | lea a off9 => cases he; exact h.result _ _ _ hs
  | trap v => cases he; exact h.done _ (h.link hs)
  | getc => cases he; exact acquireThen_leads h.reads (by exact trivial) (h.result _) (h.link hs)
  | out => cases he; exact h.done _ (ht rfl _ _ (h.link hs))
  | puts => cases he; exact h.string (ht rfl) _ (h.link hs)
  | inp => cases he; exact acquireThen_leads h.reads (by exact trivial) (h.echo (ht rfl)) (ht rfl _ _ (h.link hs))
  | putsp => cases he; exact h.packedString (ht rfl) _ (h.link hs)
  | halt => cases he; exact hend.halt rfl _ (ht rfl _ _ (h.link hs))

/-- So does going on with an unfinished instruction. -/
theorem resumePending (h : Carries P Q) (ht : CarriesText P) (hw : CarriesStore P) (k : Pending) {s : State}
    (hs : P s) : Q (Machine.resumePending k s) := by
  cases k with
  | load a => exact acquireThen_leads h.reads (by exact trivial) (h.result a) hs
  | loadPointer a => exact acquireThen_leads h.reads (by exact trivial) (h.pointer a) hs
  | storePointer a => exact acquireThen_leads h.reads (by exact trivial) (fun _ s1 h1 => h.done _ (hw _ _ s1 h1)) hs
  | getc => exact acquireThen_leads h.reads (by exact trivial) (h.result _) hs
  | inp => exact acquireThen_leads h.reads (by exact trivial) (h.echo ht) hs
  | puts addr => exact h.string ht addr hs
  | putsp addr => exact h.packedString ht addr hs

/-- And so does a step, from a state that has the property once the mark of an unfinished instruction is off. -/
theorem step (h : Carries P Q) (ht : CarriesText P) (hw : CarriesStore P) (hend : ∀ i, EndsLead i P Q)
    {s t : State} (hs : s.run = .running → P (setPending none s)) (he : step s = .next t) : Q t := by
  have hs0 : s.run = .running → s.pending = none → P s := by
    intro hrun hp
    have := hs hrun
    rwa [show setPending none s = s by rw [setPending, ← hp]] at this
  obtain ⟨hrun, ⟨k, -, rfl⟩ | ⟨hp, ir, s1, hf, he⟩ | ⟨hp, hf⟩ | ⟨hp, -, rfl⟩⟩ := step_cases he
  · exact h.resumePending ht hw k (hs hrun)
  · refine h.exec (fun _ => ht) (fun _ => hw) (hend _) (h.pc _ _ ?_) he
    obtain ⟨-, hm⟩ | ⟨-, hm⟩ := memRead_cases s.pc s
    · rw [fetch, hm] at hf
      cases hf
      exact hs0 hrun hp
    · rw [fetch, hm] at hf
      obtain ⟨r, rest, b, hin, -, -, -, rfl⟩ := acquire_value hf
      exact h.reads.consume s r rest hin (hs0 hrun hp)
  · obtain ⟨-, hm⟩ | ⟨-, hm⟩ := memRead_cases s.pc s
    · rw [fetch, hm] at hf
      cases hf
    · rw [fetch, hm] at hf
      obtain ⟨rest, hin, rfl⟩ | ⟨rest, hin, rfl⟩ := acquire_ended hf
      · exact h.reads.unavailable s rest (hs0 hrun hp) hin
      · exact h.reads.sentinel s rest (hs0 hrun hp) hin
  · exact h.done _ (hs0 hrun hp)

end Carries

end Sys2Proof.Machine
end

