-- ==== Sys2Proof/Laws/Waits.lean ====
section
/-!
SUPPORT. A wait is transparent: taking an unfinished operation up again once an answer is there gives what the operation
gives with that answer there from the start (20_memory.md R36, 60_exceptions.md R135; notes/assumptions 5).
-/

namespace Sys2Proof.Machine

open Sys2Proof

/-- `F`, run from a state `s` with nothing unfinished: if it waits, then the answer `r` and a step give what `F` gives with
`r` there. -/
def WaitsAt (r : Answer) (F : State → State) (s : State) : Prop :=
  s.run = .running → s.pending = none → (F s).pending ≠ none → step ((F s).deliver r) = .next (F (s.deliver r))

/-- What keeps the mark does not wait. -/
theorem waitsAt_of_pending {r : Answer} {F : State → State} {s : State} (h : (F s).pending = s.pending) :
    WaitsAt r F s :=
  fun _ hp hw => absurd (h.trans hp) hw

/-- A mark that is set and taken off again on a state without one. -/
theorem setPending_deliver {s : State} (hp : s.pending = none) (k : Pending) (r : Answer) :
    setPending none ((setPending (some k) s).deliver r) = s.deliver r := by
  obtain ⟨regs, pc, psr, mem, run, input, pos, out, diag, pending⟩ := s
  cases hp
  rfl

/-- An acquisition that is taken up as itself. -/
theorem acquireThen_waitsAt {r : Answer} {k : Pending} {f : Word → State → State}
    (hk : ∀ u, resumePending k u = acquireThen k f u) {s : State}
    (hf : ∀ v q rest, s.input = q :: rest → WaitsAt r (f v) (consumeAnswer rest s)) :
    WaitsAt r (acquireThen k f) s := by
  intro hrun hp hw
  cases hin : s.input with
  | nil =>
    rw [acquireThen_waiting hin,
      step_pending (s := (setPending (some k) s).deliver r) hrun rfl, setPending_deliver hp, hk]
  | cons q rest =>
    have hd : (s.deliver r).input = q :: (rest ++ [r]) := by simp [State.deliver, hin]
    have ha : acquire (s.deliver r) = match acquire s with
        | .value v s1 => .value v (s1.deliver r)
        | .ended s1 => .ended (s1.deliver r)
        | .waiting => .waiting := by
      simp only [acquire, hd, hin]
      cases answerByte q with
      | none => rfl
      | some b =>
        dsimp only
        split <;> rfl
    unfold acquireThen at hw ⊢
    rw [ha]
    cases h : acquire s with
    | waiting => rw [(acquire_waiting s).1 h] at hin; cases hin
    | ended s1 =>
      rw [h] at hw
      obtain ⟨rest', -, rfl⟩ | ⟨rest', -, rfl⟩ := acquire_ended h <;> exact absurd hp hw
    | value v s1 =>
      rw [h] at hw
      obtain ⟨q', rest', -, hin', -, -, -, rfl⟩ := acquire_value h
      exact hf v q' rest' hin' hrun hp hw

/-- A bus read that is taken up as an acquisition. -/
theorem readThen_waitsAt {r : Answer} {addr : Word} {k : Pending} {f : Word → State → State}
    (hk : ∀ u, resumePending k u = acquireThen k f u) {s : State}
    (hstorage : WaitsAt r (f (readCell s addr)) s)
    (hkeyboard : ∀ v q rest, s.input = q :: rest → WaitsAt r (f v) (consumeAnswer rest s)) :
    WaitsAt r (readThen addr k f) s := by
  by_cases h : addr = kbdrAddr
  · subst h
    intro hrun hp hw
    rw [readThen_keyboard] at hw
    rw [readThen_keyboard, readThen_keyboard]
    exact acquireThen_waitsAt hk hkeyboard hrun hp hw
  · intro hrun hp hw
    rw [readThen_storage h] at hw
    rw [readThen_storage h, readThen_storage h]
    exact hstorage hrun hp hw

/-- The string loop, which is taken up as itself at the address where it waits. -/
theorem stringFrom_waitsAt {r : Answer} {k : Word → Pending} {put : Word → State → State}
    (hk : ∀ u, resumePending (k kbdrAddr) u = stringFrom k put kbdrAddr u)
    (hin : ∀ w s, (put w s).input = s.input) (hpend : ∀ w s, (put w s).pending = s.pending)
    (hrun : ∀ w s, (put w s).run = s.run) (hput : ∀ w s, put w (s.deliver r) = (put w s).deliver r) (addr : Word)
    (s : State) : WaitsAt r (stringFrom k put addr) s := by
  refine stringFrom_induction hin (C := fun addr s => WaitsAt r (stringFrom k put addr) s) ?_ ?_ addr s
  · intro addr s h ih hr hp hw
    rw [stringFrom_storage k hin h] at hw ⊢
    rw [stringFrom_storage k hin h]
    have hc : readCell (s.deliver r) addr = readCell s addr := rfl
    rw [hc]
    split at hw
    · exact absurd hp hw
    · next h0 =>
      rw [if_neg h0, if_neg h0, hput]
      exact ih h0 ((hrun _ _).trans hr) ((hpend _ _).trans hp) hw
  · intro s ih hr hp hw
    rw [stringFrom_keyboard k hin] at hw ⊢
    rw [stringFrom_keyboard k hin]
    refine acquireThen_waitsAt (fun u => by rw [hk, stringFrom_keyboard k hin]) ?_ hr hp hw
    intro v q rest hi hr' hp' hw'
    dsimp only at hw' ⊢
    split at hw'
    · exact absurd hp' hw'
    · next h0 =>
      rw [if_neg h0, if_neg h0, hput]
      exact ih q rest v hi ((hrun _ _).trans hr') ((hpend _ _).trans hp') hw'

end Sys2Proof.Machine
end

