-- ==== Sys2Proof/Tests/Slice0.lean ====
section
/-!
SUPPORT. The model's own tests. Expected results are the spec's: words written out from 30_encoding.md section 3, and the
vectors S1 to S15 and V1 to V118 of 95_test_vectors.md, named in the tests. The witnesses show, for every statement with
hypotheses, a concrete state and operands that meet them.
-/

namespace Sys2Proof.Tests

open Sys2Proof Sys2Proof.Machine

/-! ## Small states -/

/-- A running core at `pc` with these registers, cells, `psr` and input. -/
def core (pc psr : Word) (regs : List (Reg × Word)) (cells : List (Word × Word)) (input : List Answer) : State :=
  cells.foldl (fun s c => memWrite c.1 c.2 s)
    (regs.foldl (fun s r => setReg r.1 r.2 s)
      { State.reset with pc := pc, psr := psr, input := input })

/-- A core at 0x3000 that holds one instruction word. -/
def at3000 (w psr : Word) (regs : List (Reg × Word)) (cells : List (Word × Word)) (input : List Answer) : State :=
  core 0x3000#16 psr regs ((0x3000#16, w) :: cells) input

/-- The state after one step, if there is one. -/
def after (s : State) : Option State :=
  match step s with
  | .next t => some t
  | .fault _ => none
  | .refused _ => none

/-- A register, `psr` and pc after one step. -/
def result (r : Reg) (s : State) : Option (Word × Word × Word) := (after s).map fun t => (getReg t r, t.psr, t.pc)

/-- The output, R7 and pc after one step. -/
def printed (s : State) : Option (List Byte × Word × Word) := (after s).map fun t => (t.output, getReg t 7#3, t.pc)

/-- A cell, `psr` and pc after one step. -/
def stored (a : Word) (s : State) : Option (Word × Word × Word) := (after s).map fun t => (readCell t a, t.psr, t.pc)

/-! ## WellFormed: an ill-formed term for its check -/

theorem test_wellFormed_refuses_service_vectors_of_trap :
    (serviceVectors.map fun v => Instr.wf (.trap v)) = [false, false, false, false, false, false] := by decide

theorem test_wellFormed_admits_the_neighbours :
    Instr.wf (.trap 0x1F#8) = true ∧ Instr.wf (.trap 0x26#8) = true ∧ Instr.wf .halt = true := by decide

/-! ## Decoding: one word for every constructor, bit by bit from 30_encoding.md sections 2 and 3 -/

theorem test_decode_br : decode 0b0000_101_100000001#16 = .br true false true 0b100000001#9 := by decide
theorem test_decode_addReg : decode 0b0001_011_101_0_00_110#16 = .addReg 3#3 5#3 6#3 := by decide
theorem test_decode_addImm : decode 0b0001_011_101_1_10010#16 = .addImm 3#3 5#3 0b10010#5 := by decide
theorem test_decode_ld : decode 0b0010_001_100000010#16 = .ld 1#3 0b100000010#9 := by decide
theorem test_decode_st : decode 0b0011_110_100000011#16 = .st 6#3 0b100000011#9 := by decide
theorem test_decode_jsrr : decode 0b0100_0_00_011_000000#16 = .jsrr 3#3 := by decide
theorem test_decode_jsr : decode 0b0100_1_10000000001#16 = .jsr 0b10000000001#11 := by decide
theorem test_decode_andReg : decode 0b0101_100_010_0_00_001#16 = .andReg 4#3 2#3 1#3 := by decide
theorem test_decode_andImm : decode 0b0101_100_010_1_01101#16 = .andImm 4#3 2#3 0b01101#5 := by decide
theorem test_decode_ldr : decode 0b0110_001_110_100101#16 = .ldr 1#3 6#3 0b100101#6 := by decide
theorem test_decode_str : decode 0b0111_001_110_011010#16 = .str 1#3 6#3 0b011010#6 := by decide
theorem test_decode_rti : decode 0b1000_000000000000#16 = .rti := by decide
theorem test_decode_not : decode 0b1001_010_100_111111#16 = .not 2#3 4#3 := by decide
theorem test_decode_ldi : decode 0b1010_011_011111110#16 = .ldi 3#3 0b011111110#9 := by decide
theorem test_decode_sti : decode 0b1011_101_110000001#16 = .sti 5#3 0b110000001#9 := by decide
theorem test_decode_jmp : decode 0b1100_000_110_000000#16 = .jmp 6#3 := by decide
theorem test_decode_invalid : decode 0b1101_010101010101#16 = .invalid := by decide
theorem test_decode_lea : decode 0b1110_111_000000101#16 = .lea 7#3 0b000000101#9 := by decide
theorem test_decode_trap : decode 0b1111_0000_00011111#16 = .trap 0x1F#8 ∧ decode 0xF026#16 = .trap 0x26#8 := by decide
theorem test_decode_getc : decode 0b1111_0000_00100000#16 = .getc := by decide
theorem test_decode_out : decode 0b1111_0000_00100001#16 = .out := by decide
theorem test_decode_puts : decode 0b1111_0000_00100010#16 = .puts := by decide
theorem test_decode_in : decode 0b1111_0000_00100011#16 = .inp := by decide
theorem test_decode_putsp : decode 0b1111_0000_00100100#16 = .putsp := by decide
theorem test_decode_halt : decode 0b1111_0000_00100101#16 = .halt ∧ decode 0xFA25#16 = .halt := by decide

/-! ## Sign extension and flags -/

theorem test_sext_S1_S2_V1_to_V9 :
    sext 0b11111#5 = 0xFFFF#16 ∧ sext 0b01111#5 = 0x000F#16 ∧ sext 0b10000#5 = 0xFFF0#16 ∧ sext 0b100000#6 = 0xFFE0#16
      ∧ sext 0x1FD#9 = 0xFFFD#16 ∧ sext 0x0FF#9 = 0x00FF#16 ∧ sext 0x400#11 = 0xFC00#16 ∧ sext 0x3FF#11 = 0x03FF#16 := by
  decide

/-- V12, V13, S4 to S6. -/
theorem test_setcc_V12_V13 :
    ([0x0000#16, 0x7FFF#16, 0x8000#16, 0xFFFF#16, 0x0001#16].map fun v =>
        (setcc v { State.reset with psr := 0xABC7#16 }).psr)
      = [0xABC2#16, 0xABC1#16, 0xABC4#16, 0xABC4#16, 0xABC1#16] := by decide

/-! ## ADD, AND, NOT -/

theorem test_addReg_S8 :
    result 0#3 (at3000 0x1042#16 0#16 [(1#3, 3#16), (2#3, 4#16)] [] []) = some (7#16, 1#16, 0x3001#16) := by decide

theorem test_addReg_V22 :
    result 1#3 (at3000 0x1241#16 1#16 [(1#3, 0x8000#16)] [] []) = some (0x0000#16, 2#16, 0x3001#16) := by decide

theorem test_addImm_S9 :
    result 0#3 (at3000 0x1071#16 0#16 [(1#3, 5#16)] [] []) = some (0xFFF6#16, 4#16, 0x3001#16) := by decide

theorem test_addImm_V20 :
    result 1#3 (at3000 0x1261#16 0xABC0#16 [(1#3, 0x7FFF#16)] [] []) = some (0x8000#16, 0xABC4#16, 0x3001#16) := by decide

theorem test_andReg_V26 :
    result 0#3 (at3000 0x5042#16 0#16 [(1#3, 0xF0F0#16), (2#3, 0x0FF0#16)] [] []) = some (0x00F0#16, 1#16, 0x3001#16) := by
  decide

theorem test_andImm_V28 :
    result 4#3 (at3000 0x5970#16 0#16 [(5#3, 0xABCD#16)] [] []) = some (0xABC0#16, 4#16, 0x3001#16) := by decide

theorem test_andImm_V27 :
    result 3#3 (at3000 0x56E0#16 4#16 [(3#3, 0xABCD#16)] [] []) = some (0x0000#16, 2#16, 0x3001#16) := by decide

theorem test_not_V33 :
    result 4#3 (at3000 0x993F#16 0#16 [(4#3, 0x1234#16)] [] []) = some (0xEDCB#16, 4#16, 0x3001#16) := by decide

theorem test_not_V32 :
    result 0#3 (at3000 0x9040#16 0#16 [(1#3, 0x8000#16)] [] []) = some (0x7FFF#16, 1#16, 0x3001#16) := by decide

/-! ## BR, JMP, JSR, JSRR -/

theorem test_br_V40_V42 :
    (after (at3000 0x04FF#16 2#16 [] [] [])).map State.pc = some 0x3100#16
      ∧ (after (at3000 0x0900#16 4#16 [] [] [])).map State.pc = some 0x2F01#16 := by decide

theorem test_br_V41_V46_V49 :
    (after (at3000 0x04FF#16 1#16 [] [] [])).map State.pc = some 0x3001#16
      ∧ (after (at3000 0x0E01#16 0#16 [] [] [])).map State.pc = some 0x3001#16
      ∧ (after (at3000 0x0605#16 4#16 [] [] [])).map State.pc = some 0x3001#16 := by decide

/-- V47, V48: the sequential address and the target both wrap. -/
theorem test_pc_wraps_V47_V48 :
    (after (core 0xFFFF#16 2#16 [] [(0xFFFF#16, 0x0201#16)] [])).map State.pc = some 0x0000#16
      ∧ (after (core 0xFFFF#16 1#16 [] [(0xFFFF#16, 0x0201#16)] [])).map State.pc = some 0x0001#16 := by decide

theorem test_jmp_V51_V52 :
    result 7#3 (at3000 0xCEFF#16 3#16 [(3#3, 0x1234#16)] [] []) = some (0#16, 3#16, 0x1234#16)
      ∧ result 7#3 (at3000 0xC1C0#16 0#16 [(7#3, 0x3003#16)] [] []) = some (0x3003#16, 0#16, 0x3003#16) := by decide

theorem test_jsr_V53 : result 7#3 (at3000 0x4C00#16 0#16 [] [] []) = some (0x3001#16, 0#16, 0x2C01#16) := by decide

theorem test_jsr_V54 : result 7#3 (at3000 0x4BFF#16 0#16 [] [] []) = some (0x3001#16, 0#16, 0x3400#16) := by decide

theorem test_jsrr_V56 :
    result 7#3 (core 0x3010#16 0#16 [(2#3, 0x4000#16)] [(0x3010#16, 0x4080#16)] []) = some (0x3011#16, 0#16, 0x4000#16) := by
  decide

theorem test_jsrr_V57 :
    result 7#3 (core 0x3010#16 0#16 [(7#3, 0x5000#16)] [(0x3010#16, 0x41C0#16)] []) = some (0x3011#16, 0#16, 0x3011#16) := by
  decide

/-! ## Loads and stores -/

theorem test_ld_V60 :
    result 1#3 (at3000 0x2202#16 0#16 [] [(0x3003#16, 0x8001#16)] []) = some (0x8001#16, 4#16, 0x3001#16) := by decide

theorem test_ld_V63 :
    result 0#3 (core 0xFFFF#16 0#16 [] [(0xFFFF#16, 0x2001#16), (0x0001#16, 0x0042#16)] [])
      = some (0x0042#16, 1#16, 0x0000#16) := by decide

theorem test_ldi_S10 :
    result 0#3 (core 0x2FFF#16 0#16 [] [(0x2FFF#16, 0xA000#16), (0x3000#16, 0x3002#16), (0x3002#16, 0x1234#16)] [])
      = some (0x1234#16, 1#16, 0x3000#16) := by decide

theorem test_ldi_V64 :
    (after (at3000 0xA204#16 0#16 [] [(0x3005#16, 0xFE02#16)] [.byte 0x0D#8])).map
        (fun t => (getReg t 1#3, t.psr, t.inputPos, t.input)) = some (0x000A#16, 1#16, 1, []) := by decide

theorem test_ldr_V67 :
    result 1#3 (at3000 0x6260#16 0#16 [(1#3, 0x4020#16)] [(0x4000#16, 0x9999#16)] []) = some (0x9999#16, 4#16, 0x3001#16) := by
  decide

theorem test_ldr_V69 :
    result 1#3 (at3000 0x6282#16 0#16 [(2#3, 0xFE00#16)] [] [.byte 0x41#8]) = some (0x0041#16, 1#16, 0x3001#16) := by decide

theorem test_lea_V71 :
    (after (core 0xFE00#16 0#16 [] [(0xFE00#16, 0xE001#16)] [.byte 0x41#8])).map
        (fun t => (getReg t 0#3, t.psr, t.inputPos)) = some (0xFE02#16, 4#16, 0) := by decide

theorem test_lea_V72 :
    result 0#3 (core 0xFF00#16 0#16 [] [(0xFF00#16, 0xE0FF#16)] []) = some (0x0000#16, 2#16, 0xFF01#16) := by decide

theorem test_st_V73 :
    stored 0x3003#16 (at3000 0x3602#16 5#16 [(3#3, 0xBEEF#16)] [] []) = some (0xBEEF#16, 5#16, 0x3001#16) := by decide

theorem test_sti_V74 :
    stored 0x4000#16 (at3000 0xB204#16 0#16 [(1#3, 0x0042#16)] [(0x3005#16, 0x4000#16)] [])
      = some (0x0042#16, 0#16, 0x3001#16) := by decide

theorem test_sti_V75 :
    stored 0x2FFF#16 (at3000 0xB5FE#16 0#16 [(2#3, 0x1111#16)] [(0x2FFF#16, 0x2FFF#16)] [])
      = some (0x1111#16, 0#16, 0x3001#16) := by decide

theorem test_str_V76 :
    stored 0x401F#16 (at3000 0x719F#16 0#16 [(0#3, 0x5555#16), (6#3, 0x4000#16)] [] [])
      = some (0x5555#16, 0#16, 0x3001#16) := by decide

/-- V77: a store to the keyboard's cell is a store and nothing else. -/
theorem test_str_V77 :
    (after (at3000 0x7080#16 0#16 [(0#3, 0x00FF#16), (2#3, 0xFE02#16)] [] [.byte 0x41#8])).map
        (fun t => (readCell t 0xFE02#16, t.output, t.inputPos, memRead 0xFE02#16 t == acquire t))
      = some (0x00FF#16, [], 0, true) := by decide

/-! ## TRAP, RTI, INVALID -/

theorem test_trap_V98_V99 :
    result 7#3 (at3000 0xF0FF#16 0#16 [(7#3, 0x1111#16)] [] []) = some (0x3001#16, 0#16, 0x3001#16)
      ∧ result 7#3 (at3000 0xF000#16 0#16 [(7#3, 0x1111#16)] [] []) = some (0x3001#16, 0#16, 0x3001#16) := by decide

theorem test_getc_V80_V83_V86 :
    result 0#3 (at3000 0xF020#16 0#16 [] [] [.byte 0x61#8]) = some (0x0061#16, 1#16, 0x3001#16)
      ∧ result 0#3 (at3000 0xF020#16 0#16 [] [] [.noByte]) = some (0x0000#16, 2#16, 0x3001#16)
      ∧ result 0#3 (at3000 0xF020#16 0#16 [(0#3, 0xAAAA#16)] [] [.byte 0xFF#8]) = some (0x00FF#16, 1#16, 0x3001#16) := by
  decide

theorem test_getc_V84 :
    (after (at3000 0xF020#16 5#16 [(0#3, 0x1111#16)] [] [.byte 0x03#8])).map
        (fun t => (t.run, getReg t 7#3, getReg t 0#3, t.psr))
      = some (.terminated .sentinel 0, 0x3001#16, 0x1111#16, 5#16) := by decide

theorem test_out_V87 :
    printed (at3000 0xF021#16 0#16 [(0#3, 0x1241#16)] [] []) = some ([0x41#8], 0x3001#16, 0x3001#16) := by decide

theorem test_puts_V90 :
    printed (at3000 0xF022#16 0#16 [(0#3, 0x4000#16)] [(0x4000#16, 0x4100#16), (0x4001#16, 0x0142#16)] [])
      = some ([0x00#8, 0x42#8], 0x3001#16, 0x3001#16) := by decide

theorem test_puts_V91 :
    printed (at3000 0xF022#16 0#16 [(0#3, 0xFFFF#16)] [(0xFFFF#16, 0x0041#16), (0x0000#16, 0x0042#16)] [])
      = some ([0x41#8, 0x42#8], 0x3001#16, 0x3001#16) := by decide

theorem test_in_V92 :
    (after (at3000 0xF023#16 0#16 [] [] [.byte 0x0D#8])).map (fun t => (t.output, getReg t 0#3, t.psr, getReg t 7#3))
      = some (Config.inPrompt ++ [0x0A#8], 0x000A#16, 1#16, 0x3001#16) := by rfl

theorem test_in_V93 :
    (after (at3000 0xF023#16 0#16 [] [] [.byte 0x03#8])).map (fun t => (t.output, t.run))
      = some (Config.inPrompt, .terminated .sentinel 0) := by rfl

/-- V94 and V95: which bytes of a word PUTSP emits, for both values of `PUTSP_SKIP_ZERO_BYTE`. -/
theorem test_packedByte_V94_V95 :
    packedByte 0x48#8 = [0x48#8] ∧ packedByte 0x65#8 = [0x65#8] ∧ packedByte 0x79#8 = [0x79#8]
      ∧ packedByte 0x00#8 = (if Config.putspSkipZeroByte then [] else [0x00#8]) := by
  unfold packedByte
  generalize Config.putspSkipZeroByte = skip
  cases skip <;> decide

theorem test_putsp_V94 :
    printed (at3000 0xF024#16 0#16 [(0#3, 0x4000#16)] [(0x4000#16, 0x6548#16), (0x4001#16, 0x0079#16)] [])
      = some ((packedByte 0x48#8 ++ packedByte 0x65#8) ++ (packedByte 0x79#8 ++ packedByte 0x00#8), 0x3001#16,
          0x3001#16) := by rfl

theorem test_halt_V96_V97 :
    (after (at3000 0xFA25#16 0#16 [] [] [])).map (fun t => (getReg t 7#3, t.output, t.run))
      = some (0x3001#16, Config.haltNotice, .terminated .halt 0) := by rfl

theorem test_rti_V100 :
    (after (at3000 0x8FFF#16 3#16 [] [] [])).map (fun t => (t.run, t.psr, t.pc, t.diag))
      = some (.terminated .rtiUnimplemented Config.abortStatus, 3#16, 0x3001#16, [.rtiUnimplemented]) := by rfl

theorem test_invalid_V101 :
    (after (at3000 0xDFFF#16 3#16 [(0#3, 0x1111#16)] [] [])).map (fun t => (t.run, t.psr, t.pc, getReg t 0#3))
      = some (.terminated .invalidOpcode 1, 3#16, 0x3001#16, 0x1111#16) := by decide

/-! ## The bus, the fetch and the image -/

theorem test_bus_V110_V113 :
    memRead 0xFE00#16 (memWrite 0xFE00#16 0x8000#16 State.reset)
        = .value 0x8000#16 (memWrite 0xFE00#16 0x8000#16 State.reset)
      ∧ memRead 0xFE01#16 State.reset = .value 0#16 State.reset
      ∧ memRead 0xFE03#16 State.reset = .value 0#16 State.reset := by decide

theorem test_fetch_V114 :
    (after (core 0xFE02#16 0#16 [] [] [.byte 0x41#8])).map (fun t => (t.pc, t.inputPos)) = some (0xFE03#16, 1) := by decide

theorem test_fetch_V115 :
    (after (core 0xFE02#16 0#16 [] [] [.byte 0x03#8])).map (fun t => (t.pc, t.run))
      = some (0xFE02#16, .terminated .sentinel 0) := by decide

theorem test_image_S11_V117_V118 :
    Image.ofBytes [0x30#8, 0x00#8, 0x12#8, 0x34#8] = some ⟨0x3000#16, [0x1234#16]⟩
      ∧ Image.ofBytes [0xFF#8, 0xFF#8, 0x00#8, 0x00#8] = some ⟨0xFFFF#16, [0#16]⟩
      ∧ Image.ofBytes [0xFF#8, 0xFF#8, 0x00#8, 0x00#8, 0x00#8, 0x00#8] = none := by decide

/-- P6: the first step of the same image under two values of `PSR_RESET`. -/
theorem test_psrReset_P6 :
    (after (State.boot 0x0000#16 [] ⟨0x3000#16, [0x0E01#16, 0x1021#16, 0xF025#16]⟩)).map State.pc = some 0x3001#16
      ∧ (after (State.boot 0x0002#16 [] ⟨0x3000#16, [0x0E01#16, 0x1021#16, 0xF025#16]⟩)).map State.pc
        = some 0x3002#16 := by decide

/-! ## The host's two definitions, and a wait -/

theorem test_decodeTableWord : decodeTableWord 16 0x1042 = some (.addReg 0#3 1#3 2#3) := by decide

theorem test_withFetchWord_runs_the_word :
    result 1#3 (State.reset.withFetchWord 16 0x1265) = some (5#16, 1#16, 0x0001#16) := by decide

/-- GETC with no answer yet keeps all but R7 and its own mark; with the answer delivered it goes on (V80). -/
theorem test_getc_waits_then_completes :
    (after (at3000 0xF020#16 0#16 [] [] [])).map (fun t => (t.pending, getReg t 7#3, t.pc))
        = some (some .getc, 0x3001#16, 0x3001#16)
      ∧ ((after (at3000 0xF020#16 0#16 [] [] [])).bind fun t => result 0#3 (t.deliver (.byte 0x61#8)))
        = some (0x0061#16, 1#16, 0x3001#16) := by decide

/-! ## Witnesses: concrete states and operands that meet each statement's hypotheses, clause by clause

In the order of Certificates/Slice0/Obligations.lean; a statement with no hypotheses has no witness here. -/

theorem witness_DecodeOfEncodeIsTheInstruction :
    Instr.wf (.trap 0x1F#8) = true ∧ Instr.wf (.trap 0x26#8) = true ∧ Instr.wf (.br true true true 0x1FF#9) = true := by
  decide

theorem witness_IgnoredBitsTakeNoPartInDecoding :
    0x105A#16 &&& ~~~(ignoredBits (decode 0x1042#16)) = 0x1042#16 &&& ~~~(ignoredBits (decode 0x1042#16))
      ∧ 0x105A#16 ≠ 0x1042#16 := by decide

theorem witness_FlagWritersAndTheOnlyFlagReader_kept :
    flagSource (.st 3#3 2#9) = none ∧ ∃ t, exec (.st 3#3 2#9) State.reset = .next t := ⟨rfl, _, rfl⟩

theorem witness_FlagWritersAndTheOnlyFlagReader_written :
    flagSource .getc = some 0#3
      ∧ ∃ t, exec .getc (core 0#16 0#16 [] [] [.byte 0x61#8]) = .next t ∧ t.run = .running ∧ t.pending = none :=
  ⟨rfl, _, rfl, rfl, rfl⟩

theorem witness_FlagWritersAndTheOnlyFlagReader_read :
    (∀ n z p off9, Instr.lea 0#3 0#9 ≠ .br n z p off9) ∧ ∃ t, exec (.lea 0#3 0#9) State.reset = .next t :=
  ⟨by simp, _, rfl⟩

/-- pc on either side of 0xFE02, with a zero cell there. -/
theorem witness_BranchWithNoneOrAllEnabled :
    (core 0xFE01#16 0#16 [] [] []).run = .running ∧ (core 0xFE01#16 0#16 [] [] []).pending = none
      ∧ (core 0xFE01#16 0#16 [] [] []).pc ≠ 0xFE02#16 ∧ (core 0xFE03#16 0#16 [] [] []).pc ≠ 0xFE02#16
      ∧ readCell (core 0xFE01#16 0#16 [] [] []) 0xFE01#16 = 0x0000#16
      ∧ readCell (core 0xFE03#16 0#16 [] [] []) 0xFE03#16 = 0x0000#16 := by decide

/-- LD, LDI and STI at 0xFE01, 0xFE02 and 0xFE03: both sides of the keyboard's address and the address itself. -/
theorem witness_LoadForm_LoadIndirectForm_StoreIndirectForm :
    wordsFrom 0xFE00#16 (1#9).toInt ≠ 0xFE02#16 ∧ wordsFrom 0xFE00#16 (2#9).toInt = 0xFE02#16
      ∧ wordsFrom 0xFE00#16 (3#9).toInt ≠ 0xFE02#16
      ∧ Memory.wf (core 0xFE00#16 0#16 [] [(0xFE01#16, 7#16)] []).mem = true := by decide

theorem witness_LoadBaseOffsetForm :
    wordsFrom 0xFE21#16 (31#6).toInt ≠ 0xFE02#16 ∧ wordsFrom 0xFE22#16 (32#6).toInt = 0xFE02#16 := by decide

/-- The four clauses of every character read: an answer that gives a character (a byte, a carriage return, no byte),
0x03, an unavailable terminal, and no answer. -/
theorem witness_ReadsCharacter :
    Received (.byte 0x02#8) 0x0002#16 ∧ Received (.byte 0x04#8) 0x0004#16 ∧ Received (.byte 0x0D#8) 0x000A#16
      ∧ Received (.byte 0xFF#8) 0x00FF#16 ∧ Received .noByte 0x0000#16
      ∧ (core 0#16 0#16 [] [] [.byte 0x0D#8]).input = .byte 0x0D#8 :: []
      ∧ (core 0#16 0#16 [] [] [.byte 0x03#8]).input = .byte 0x03#8 :: []
      ∧ (core 0#16 0#16 [] [] [.unavailable]).input = .unavailable :: [] ∧ State.reset.input = [] :=
  ⟨.inl ⟨_, rfl, by decide⟩, .inl ⟨_, rfl, by decide⟩, .inl ⟨_, rfl, by decide⟩, .inl ⟨_, rfl, by decide⟩,
    .inr ⟨rfl, rfl⟩, rfl, rfl, rfl, rfl⟩

/-- `StoreForm` and `StoreBaseOffsetForm`, and `WriteStoresAndDoesNothingElse`: a memory with and one without entries. -/
theorem witness_canonical_memory :
    Memory.wf State.reset.mem = true ∧ Memory.wf (at3000 0x3602#16 0#16 [] [(0xFFFF#16, 1#16)] []).mem = true := by decide

theorem witness_TrapWithNoServiceOnlyLinks :
    ((0x1F#8).toNat < 0x20 ∨ 0x25 < (0x1F#8).toNat) ∧ ((0x26#8).toNat < 0x20 ∨ 0x25 < (0x26#8).toNat)
      ∧ ((0x00#8).toNat < 0x20 ∨ 0x25 < (0x00#8).toNat) ∧ ((0xFF#8).toNat < 0x20 ∨ 0x25 < (0xFF#8).toNat) := by decide

/-- A string of two words, an empty one, one that wraps, and one that ends in the cell before the keyboard's. -/
theorem witness_PutsService_PutspService :
    HoldsString (core 0#16 0#16 [(0#3, 0x4000#16)] [(0x4000#16, 0x6548#16), (0x4001#16, 0x0079#16)] []) 0x4000#16
        [0x6548#16, 0x0079#16]
      ∧ HoldsString State.reset 0x4000#16 []
      ∧ HoldsString (core 0#16 0#16 [] [(0xFFFF#16, 0x0041#16), (0#16, 0x0042#16)] []) 0xFFFF#16 [0x0041#16, 0x0042#16]
      ∧ HoldsString (core 0#16 0#16 [] [(0xFE00#16, 0x0041#16)] []) 0xFE00#16 [0x0041#16] := by
  simp only [HoldsString, HoldsWords]
  decide

/-- A string that reaches the keyboard after one word and goes on behind it. -/
theorem witness_PutsReachingTheKeyboard_PutspReachingTheKeyboard :
    HoldsWords (core 0#16 0#16 [(0#3, 0xFE01#16)] [(0xFE01#16, 0x0041#16), (0xFE03#16, 0x0042#16)] []) 0xFE01#16 [0x0041#16]
      ∧ 0xFE01#16 + BitVec.ofNat 16 1 = 0xFE02#16
      ∧ HoldsString (core 0#16 0#16 [(0#3, 0xFE01#16)] [(0xFE01#16, 0x0041#16), (0xFE03#16, 0x0042#16)] []) 0xFE03#16
          [0x0042#16] := by
  simp only [HoldsString, HoldsWords]
  decide

/-- Each clause: a zero cell and another on either side of the keyboard's address, and the last address. -/
theorem witness_UnfinishedStringGoesOn :
    (core 0#16 0#16 [] [(0xFE03#16, 0x0042#16)] []).run = .running
      ∧ (core 0#16 0#16 [] [(0xFE03#16, 0x0042#16)] []).pending = none
      ∧ 0xFE01#16 ≠ 0xFE02#16 ∧ readCell (core 0#16 0#16 [] [(0xFE03#16, 0x0042#16)] []) 0xFE01#16 = 0x0000#16
      ∧ 0xFE03#16 ≠ 0xFE02#16 ∧ readCell (core 0#16 0#16 [] [(0xFE03#16, 0x0042#16)] []) 0xFE03#16 ≠ 0x0000#16
      ∧ readCell (core 0#16 0#16 [] [(0xFE03#16, 0x0042#16)] []) 0xFFFF#16 = 0x0000#16 := by decide

/-- An unfinished PUTS takes a character at 0xFE02, goes on at 0xFE03 and ends at the zero word behind it. -/
theorem test_puts_goes_on_past_the_keyboard :
    (after { core 0#16 0#16 [] [(0xFE03#16, 0x0041#16)] [.byte 0x42#8] with pending := some (.puts 0xFE02#16) }).map
        (fun t => (t.output, t.pending, t.input)) = some ([0x42#8, 0x41#8], none, []) := by decide

theorem witness_BusReadByAddress : 0xFE01#16 ≠ 0xFE02#16 ∧ 0xFE03#16 ≠ 0xFE02#16 ∧ 0xFE00#16 ≠ 0xFE02#16 := by decide

theorem witness_EqualContentsAreEqualMemories :
    Memory.wf (Memory.write (Memory.write [] 5#16 7#16) 3#16 9#16) = true
      ∧ Memory.write (Memory.write [] 5#16 7#16) 3#16 9#16 = Memory.write (Memory.write [] 3#16 9#16) 5#16 7#16
      ∧ Memory.write (Memory.write [] 5#16 7#16) 5#16 0#16 = [] := by decide

theorem witness_StepRunsTheDecodedInstruction :
    (at3000 0x1042#16 0#16 [] [] []).run = .running ∧ (at3000 0x1042#16 0#16 [] [] []).pending = none
      ∧ (at3000 0x1042#16 0#16 [] [] []).pc ≠ 0xFE02#16
      ∧ decode (readCell (at3000 0x1042#16 0#16 [] [] []) (at3000 0x1042#16 0#16 [] [] []).pc) = .addReg 0#3 1#3 2#3 := by
  decide

theorem witness_FetchAtTheKeyboard :
    (core 0xFE02#16 0#16 [] [] [.byte 0x41#8]).run = .running ∧ (core 0xFE02#16 0#16 [] [] [.byte 0x41#8]).pending = none
      ∧ (core 0xFE02#16 0#16 [] [] [.byte 0x41#8]).pc = 0xFE02#16 := by decide

theorem witness_TerminationIsFinal :
    State.reset.run = .running
      ∧ ∃ t, exec .halt State.reset = .next t ∧ t.run = .terminated .halt 0 := ⟨rfl, _, rfl, rfl⟩

theorem witness_WaitingKeepsAllState :
    ∀ k ∈ [Pending.load 1#3, .loadPointer 1#3, .storePointer 1#3, .getc, .inp, .puts 0xFE02#16, .putsp 0xFE02#16],
      waitsForCharacter k ∧ ({ State.reset with pending := some k } : State).run = .running
        ∧ ({ State.reset with pending := some k } : State).pending = some k
        ∧ ({ State.reset with pending := some k } : State).input = [] := by
  simp [waitsForCharacter, State.reset, State.resetWith]

/-- GETC and IN, a load, both reads of LDI, the pointer read of STI, and a string that waits at 0xFE02 at once or after it
has consumed an answer there. -/
theorem witness_WaitingIsTransparent :
    State.reset.run = .running ∧ State.reset.pending = none
      ∧ (∃ t, exec .getc State.reset = .next t ∧ t.pending ≠ none)
      ∧ (∃ t, exec .inp State.reset = .next t ∧ t.pending ≠ none)
      ∧ (∃ t, exec (.ld 1#3 2#9) (core 0xFE00#16 0#16 [] [] []) = .next t ∧ t.pending = some (.load 1#3))
      ∧ (∃ t, exec (.ldi 1#3 2#9) (core 0xFE00#16 0#16 [] [] []) = .next t ∧ t.pending = some (.loadPointer 1#3))
      ∧ (∃ t, exec (.ldi 1#3 0#9) (core 0x3000#16 0#16 [] [(0x3000#16, 0xFE02#16)] []) = .next t
        ∧ t.pending = some (.load 1#3))
      ∧ (∃ t, exec (.sti 1#3 2#9) (core 0xFE00#16 0#16 [] [] []) = .next t ∧ t.pending = some (.storePointer 1#3))
      ∧ ∃ t, exec .puts (core 0#16 0#16 [(0#3, 0xFE01#16)] [(0xFE01#16, 0x0041#16)] []) = .next t
        ∧ t.pending = some (.puts 0xFE02#16) :=
  ⟨rfl, rfl, ⟨_, rfl, by decide⟩, ⟨_, rfl, fun h => by cases h⟩, ⟨_, rfl, by decide⟩, ⟨_, rfl, by decide⟩, ⟨_, rfl, by decide⟩,
    ⟨_, rfl, by decide⟩, ⟨_, rfl, by decide⟩⟩

/-- The three stores, each followed at once by the fetch from the cell stored to. -/
theorem witness_StoreIsSeenByTheNextFetch :
    (∃ t, exec (.st 1#3 0#9) (core 0x3002#16 0#16 [(1#3, 0xF025#16)] [] []) = .next t ∧ t.run = .running
        ∧ t.pending = none ∧ t.pc = wordsFrom 0x3002#16 (0#9).toInt)
      ∧ (∃ t, exec (.str 1#3 2#3 0#6) (core 0x3002#16 0#16 [(1#3, 0xF025#16), (2#3, 0x3002#16)] [] []) = .next t
        ∧ t.run = .running ∧ t.pending = none ∧ t.pc = wordsFrom 0x3002#16 (0#6).toInt)
      ∧ ∃ t, exec (.sti 1#3 1#9) (core 0x3002#16 0#16 [(1#3, 0xF025#16)] [(0x3003#16, 0x3002#16)] []) = .next t
        ∧ t.run = .running ∧ t.pending = none ∧ wordsFrom 0x3002#16 (1#9).toInt = 0x3003#16 ∧ t.pc = 0x3002#16 :=
  ⟨⟨_, rfl, rfl, rfl, by decide⟩, ⟨_, rfl, rfl, rfl, by decide⟩, ⟨_, rfl, rfl, rfl, by decide, rfl⟩⟩

/-- A state with the invariant, running, waiting and terminated, and a step from it. -/
theorem witness_StepKeepsTheInvariant :
    (at3000 0x1042#16 1#16 [] [] []).Inv ∧ (after (at3000 0x1042#16 1#16 [] [] [])).isSome = true
      ∧ ({ State.reset with pending := some .getc } : State).Inv
      ∧ ({ State.reset with run := .terminated .invalidOpcode 1 } : State).Inv := by
  refine ⟨⟨by decide, ?_, fun _ => rfl, ?_⟩, by decide, ⟨by decide, ?_, fun _ => rfl, ?_⟩,
    ⟨by decide, ?_, fun h => absurd rfl h, ?_⟩⟩
  · intro reason status h
    cases h
  · intro k h
    cases h
  · intro reason status h
    cases h
  · intro k h
    cases h
    trivial
  · intro reason status h
    cases h
    rfl
  · intro k h
    cases h

/-- `ExactlyOneFlagIsKept`, and a step for it, `HighStatusBitsNeverChange`, `OutputOnlyGrows` and
`InputIsConsumedInOrder`. -/
theorem witness_step_rules :
    OneFlag (at3000 0xF020#16 0xABC1#16 [] [] [.byte 0x61#8])
      ∧ ∃ t, step (at3000 0xF020#16 0xABC1#16 [] [] [.byte 0x61#8]) = .next t :=
  ⟨.inr (.inr (by decide)), _, rfl⟩

theorem witness_OnlyStoresChangeMemory :
    stores .getc = false ∧ ∃ t, exec .getc (core 0#16 0#16 [] [(5#16, 7#16)] [.byte 0x61#8]) = .next t := ⟨rfl, _, rfl⟩

theorem witness_OnlyTrapServicesEmit :
    emits .getc = false ∧ ∃ t, exec .getc (core 0#16 0#16 [] [] [.byte 0x61#8]) = .next t := ⟨rfl, _, rfl⟩

theorem witness_UnreadInputHasNoEffect :
    mayAcquire .out = false ∧ ∃ t, exec .out (core 0#16 0#16 [] [] [.byte 0x03#8]) = .next t := ⟨rfl, _, rfl⟩

/-- The run ends in a fetch at 0xFE02, in a step that goes on with an unfinished instruction, and by HALT. -/
theorem witness_RunEndsOnlyForItsReasons_step :
    (∃ t, step (core 0xFE02#16 0#16 [] [] [.byte 0x03#8]) = .next t ∧ t.run = .terminated .sentinel 0)
      ∧ (∃ t, step { core 0#16 0#16 [] [] [.byte 0x03#8] with pending := some (.load 1#3) } = .next t
        ∧ t.run = .terminated .sentinel 0)
      ∧ (∃ t, step (at3000 0xF025#16 0#16 [] [] []) = .next t ∧ t.run = .terminated .halt 0)
      ∧ Executes .halt (at3000 0xF025#16 0#16 [] [] []) :=
  ⟨⟨_, rfl, rfl⟩, ⟨_, rfl, rfl⟩, ⟨_, rfl, rfl⟩, rfl, .inl ⟨by decide, by decide⟩⟩

/-- Each of the five reasons is reached. -/
theorem witness_RunEndsOnlyForItsReasons :
    (∃ t, exec .halt State.reset = .next t ∧ t.run = .terminated .halt 0)
      ∧ (∃ t, exec .invalid State.reset = .next t ∧ t.run = .terminated .invalidOpcode 1)
      ∧ (∃ t, exec .rti State.reset = .next t ∧ t.run = .terminated .rtiUnimplemented Config.abortStatus)
      ∧ (∃ t, exec .getc (core 0#16 0#16 [] [] [.byte 0x03#8]) = .next t ∧ t.run = .terminated .sentinel 0)
      ∧ ∃ t, exec .getc (core 0#16 0#16 [] [] [.unavailable]) = .next t
        ∧ t.run = .terminated .terminalUnavailable Config.abortStatus :=
  ⟨⟨_, rfl, rfl⟩, ⟨_, rfl, rfl⟩, ⟨_, rfl, rfl⟩, ⟨_, rfl, rfl⟩, ⟨_, rfl, rfl⟩⟩

/-- V117 and V118: the last image that fits and the first that does not; a cell inside and one outside the image. -/
theorem witness_StartStateHoldsTheImage_ImageFileIsBigEndianWords :
    Image.fits ⟨0xFFFF#16, [0#16]⟩ = true ∧ Image.fits ⟨0xFFFF#16, [0#16, 0#16]⟩ = false
      ∧ 0 < (Image.words ⟨0x3000#16, [0xF025#16]⟩).length
      ∧ (∀ j < (Image.words ⟨0x3000#16, [0xF025#16]⟩).length, 0x3001#16 ≠ 0x3000#16 + BitVec.ofNat 16 j)
      ∧ [0x30#8, 0x00#8, 0x12#8].length % 2 = 1 := by decide

end Sys2Proof.Tests
end

/-!
SUPPORT and PROOFS. The condition codes and the reset values of 10_state.md (R12, R17, R18): which instructions set the
flags, which leave all of `psr`, and that no instruction but BR depends on it.
-/

namespace Sys2Proof.Machine

open Sys2Proof

/-! ## The instructions that leave all of `psr` (10_state.md R18) -/

/-- No way a read can go touches `psr`. -/
theorem readsLead_psr (w : Word) : ReadsLead (fun u => u.psr = w) (fun u => u.psr = w) where
  consume _ _ _ _ h := h
  sentinel _ _ h _ := h
  unavailable _ _ h _ := h
  wait _ _ _ h := h

theorem stringFrom_psr {k : Word → Pending} (hk : waitsForCharacter (k kbdrAddr)) {put : Word → State → State}
    (hin : ∀ w s, (put w s).input = s.input) (hput : ∀ w s, (put w s).psr = s.psr) (addr : Word) (s : State) :
    (stringFrom k put addr s).psr = s.psr :=
  stringFrom_leads (readsLead_psr s.psr) (fun _ h => h) hk (fun w u h => (hput w u).trans h) hin addr rfl

theorem exec_keeps_psr {i : Instr} {s t : State} (hi : flagSource i = none) (he : exec i s = .next t) :
    t.psr = s.psr := by
  cases i with
  | addReg | addImm | andReg | andImm | not | ld | ldi | ldr | lea | getc | inp => cases hi
  | st | jsrr | jsr | str | rti | jmp | invalid | trap | out | halt => cases he; rfl
  | br n z p off9 =>
    cases he
    split <;> rfl
  | sti a off9 =>
    cases he
    exact readThen_leads (f := storeThroughPointer a) (readsLead_psr s.psr) _ (by exact trivial) (fun _ _ h => h) rfl
  | puts => cases he; exact stringFrom_psr (k := .puts) rfl (put := putWord) (fun _ _ => rfl) (fun _ _ => rfl) _ (linkR7 s)
  | putsp =>
    cases he
    exact stringFrom_psr (k := .putsp) rfl (put := putPackedWord) (fun _ _ => rfl) (fun _ _ => rfl) _ (linkR7 s)

/-! ## The instructions that set the flags (10_state.md R18) -/

/-- If `t` runs on with nothing unfinished, its flags report register `a` and its `psr` bits 15:3 are those of `s`. -/
def ReportsOnceFinished (a : Reg) (s t : State) : Prop :=
  t.run = .running → t.pending = none → FlagsReport (getReg t a) t ∧ KeepsHighPsr s t

/-- A read that ends the run or waits leaves nothing to report. -/
theorem readsLead_reportsOnceFinished (a : Reg) (s : State) : ReadsLead (KeepsHighPsr s) (ReportsOnceFinished a s) where
  consume _ _ _ _ h := h
  sentinel _ _ _ _ hrun := by cases hrun
  unavailable _ _ _ _ hrun := by cases hrun
  wait _ _ _ _ _ hp := by cases hp

theorem writeResult_reportsOnceFinished {s : State} (a : Reg) (v : Word) (u : State) (h : KeepsHighPsr s u) :
    ReportsOnceFinished a s (writeResult a v u) := by
  obtain ⟨⟨hval, -, hflags, hhigh, -, -⟩, -, -, -⟩ := writeResult_onlyResultIn a v u
  exact fun _ _ => ⟨hval.symm ▸ hflags, fun k hk => (hhigh k hk).trans (h k hk)⟩

theorem exec_reportsOnceFinished {i : Instr} {a : Reg} {s t : State} (hi : flagSource i = some a)
    (he : exec i s = .next t) : ReportsOnceFinished a s t := by
  have hreads := readsLead_reportsOnceFinished a s
  have hresult := writeResult_reportsOnceFinished (s := s) a
  cases i with
  | br | st | jsrr | jsr | str | rti | sti | jmp | invalid | trap | out | puts | putsp | halt => cases hi
  | addReg | addImm | andReg | andImm | not | lea => cases hi; cases he; exact hresult _ _ fun _ _ => rfl
  | ld | ldr =>
    cases hi; cases he
    exact readThen_leads hreads _ (by exact trivial) hresult fun _ _ => rfl
  | ldi =>
    cases hi; cases he
    exact readThen_leads hreads _ (by exact trivial)
      (fun _ _ h => readThen_leads hreads _ (by exact trivial) hresult h) fun _ _ => rfl
  | getc =>
    cases hi; cases he
    exact acquireThen_leads hreads (by exact trivial) hresult fun _ _ => rfl
  | inp =>
    cases hi; cases he
    exact acquireThen_leads (k := .inp) (f := finishIn) hreads trivial (fun v u h => hresult v (emit (lowByte v) u) h)
      fun _ _ => rfl

/-! ## Only BR reads `psr` (10_state.md R18) -/

/-- `s` with `q` for its `psr`. -/
def setPsr (q : Word) (s : State) : State := { s with psr := q }

@[simp] theorem setPsr_input (q : Word) (s : State) : (setPsr q s).input = s.input := rfl
@[simp] theorem readCell_setPsr (q : Word) (s : State) (c : Word) : readCell (setPsr q s) c = readCell s c := rfl

/-- `t` is `s` in every field but `psr`. -/
def EqualButPsr (s t : State) : Prop := t = { s with psr := t.psr }

theorem equalButPsr_setPsr (q : Word) (s : State) : EqualButPsr s (setPsr q s) := rfl

/-- Another `psr` in `s` makes no difference to `F` but in `psr` itself. -/
def IgnoresPsrAt (F : State → State) (s : State) : Prop := ∀ q, EqualButPsr (F s) (F (setPsr q s))

theorem writeResult_ignoresPsrAt (a : Reg) (v : Word) (s : State) : IgnoresPsrAt (writeResult a v) s := fun _ => rfl

/-- What an acquisition does depends on the next answer, and otherwise only on how the instruction goes on. -/
theorem acquireThen_ignoresPsrAt (k : Pending) {f : Word → State → State} {s : State}
    (hf : ∀ v r rest, s.input = r :: rest → IgnoresPsrAt (f v) (consumeAnswer rest s)) :
    IgnoresPsrAt (acquireThen k f) s := by
  intro q
  cases hin : s.input with
  | nil =>
    rw [acquireThen_waiting hin, acquireThen_waiting ((setPsr_input q s).trans hin)]
    rfl
  | cons r rest =>
    simp only [acquireThen, acquire, setPsr_input, hin]
    cases answerByte r with
    | none => rfl
    | some b =>
      dsimp only
      split
      · rfl
      · exact hf _ r rest hin q

theorem readThen_ignoresPsrAt (addr : Word) (k : Pending) {f : Word → State → State} (hf : ∀ v s, IgnoresPsrAt (f v) s)
    (s : State) : IgnoresPsrAt (readThen addr k f) s := by
  intro q
  by_cases h : addr = kbdrAddr
  · subst h
    rw [readThen_keyboard, readThen_keyboard]
    exact acquireThen_ignoresPsrAt k (fun v _ _ _ => hf v _) q
  · rw [readThen_storage h, readThen_storage h]
    exact hf _ s q

theorem stringFrom_ignoresPsrAt (k : Word → Pending) {put : Word → State → State}
    (hin : ∀ w s, (put w s).input = s.input)
    (hput : ∀ w s q, put w (setPsr q s) = setPsr q (put w s)) (addr : Word) (s : State) :
    IgnoresPsrAt (stringFrom k put addr) s := by
  refine stringFrom_induction hin (C := fun addr s => IgnoresPsrAt (stringFrom k put addr) s) ?_ ?_ addr s
  · intro addr s h ih q
    rw [stringFrom_storage k hin h, stringFrom_storage k hin h, readCell_setPsr, hput]
    split
    · exact equalButPsr_setPsr q s
    · next h0 => exact ih h0 q
  · intro s ih q
    rw [stringFrom_keyboard k hin, stringFrom_keyboard k hin]
    refine acquireThen_ignoresPsrAt _ (fun c r rest hi p => ?_) q
    split
    · exact equalButPsr_setPsr p _
    · rw [hput]
      exact ih r rest c hi p

theorem exec_ignores_psr {i : Instr} (hi : ∀ n z p off9, i ≠ .br n z p off9) {s t : State} (he : exec i s = .next t)
    (q : Word) : ∃ t', exec i (setPsr q s) = .next t' ∧ EqualButPsr t t' := by
  cases i with
  | br n z p off9 => exact absurd rfl (hi n z p off9)
  | addReg | addImm | andReg | andImm | not | lea | st | str | jmp | jsr | jsrr | rti | invalid | trap | out | halt =>
    cases he
    exact ⟨_, rfl, rfl⟩
  | ld | ldr =>
    cases he
    exact ⟨_, rfl, readThen_ignoresPsrAt _ _ (writeResult_ignoresPsrAt _) s q⟩
  | ldi a off9 =>
    cases he
    exact ⟨_, rfl, readThen_ignoresPsrAt _ _ (fun v => readThen_ignoresPsrAt v _ (writeResult_ignoresPsrAt a)) s q⟩
  | sti a off9 =>
    cases he
    exact ⟨_, rfl, readThen_ignoresPsrAt _ _ (f := storeThroughPointer a) (fun _ _ _ => rfl) s q⟩
  | getc =>
    cases he
    exact ⟨_, rfl, acquireThen_ignoresPsrAt _ (s := linkR7 s) (fun v _ _ _ => writeResult_ignoresPsrAt _ v _) q⟩
  | inp =>
    cases he
    exact ⟨_, rfl, acquireThen_ignoresPsrAt _ (f := finishIn) (s := emitAll Config.inPrompt (linkR7 s))
      (fun _ _ _ _ _ => rfl) q⟩
  | puts =>
    cases he
    exact ⟨_, rfl, stringFrom_ignoresPsrAt .puts (put := putWord) (fun _ _ => rfl) (fun _ _ _ => rfl) _ (linkR7 s) q⟩
  | putsp =>
    cases he
    exact ⟨_, rfl,
      stringFrom_ignoresPsrAt .putsp (put := putPackedWord) (fun _ _ => rfl) (fun _ _ _ => rfl) _ (linkR7 s) q⟩

/-! ## The obligations -/

/-- Settles O6: the three laws of `setcc`, which is an update of `psr` alone. -/
theorem setccReportsTheSignByExactlyOneFlag : Obligations.SetccReportsTheSignByExactlyOneFlag := by
  unfold Obligations.SetccReportsTheSignByExactlyOneFlag
  exact fun v s => ⟨setcc_flagsReport v s, setcc_oneFlag v s, setcc_keepsHighPsr v s, rfl⟩

/-- Settles O7: one lemma over the instructions for each of its three clauses. -/
theorem flagWritersAndTheOnlyFlagReader : Obligations.FlagWritersAndTheOnlyFlagReader := by
  unfold Obligations.FlagWritersAndTheOnlyFlagReader
  refine ⟨fun _ _ _ hi he => exec_keeps_psr hi he, ?_, fun _ _ _ q hi he => exec_ignores_psr hi he q⟩
  exact fun _ _ _ _ hi _ _ he hrun hp => exec_reportsOnceFinished hi he hrun hp

/-- Settles O60: reset fills the register file with 0x0000. -/
theorem registersAreZeroAtReset : Obligations.RegistersAreZeroAtReset := by
  unfold Obligations.RegistersAreZeroAtReset
  intro p r
  exact Vector.getElem_replicate r.isLt

end Sys2Proof.Machine

/-!
PROOFS. Reads of the memory bus (20_memory.md R33): the bus knows one device address, `kbdrAddr`, and every other address
is storage, KBSR at 0xFE00 among them.
-/

namespace Sys2Proof.Machine

open Sys2Proof

/-- Settles O36: the two laws of a bus read, at a storage address and at `kbdrAddr`, which is 0xFE02. -/
theorem busReadByAddress : Obligations.BusReadByAddress := by
  unfold Obligations.BusReadByAddress
  intro addr s
  constructor
  · intro hstorage
    exact memRead_storage hstorage s
  · rintro rfl
    exact memRead_keyboard s

end Sys2Proof.Machine

/-!
PROOFS. ADD, AND, NOT (40_alu.md R70 to R74). Each meaning is one `writeResult`, whose whole effect is
`writeResult_onlyResultIn`; what is left for each form is that its value is the one the spec computes.
-/

namespace Sys2Proof.Machine

open Sys2Proof

/-! ## The meanings the executor gives -/

theorem exec_addReg (a b sr2 : Reg) (s : State) :
    exec (.addReg a b sr2) s = .next (writeResult a (getReg s b + getReg s sr2) s) := rfl

theorem exec_addImm (a b : Reg) (imm5 : BitVec 5) (s : State) :
    exec (.addImm a b imm5) s = .next (writeResult a (getReg s b + sext imm5) s) := rfl

theorem exec_andReg (a b sr2 : Reg) (s : State) :
    exec (.andReg a b sr2) s = .next (writeResult a (getReg s b &&& getReg s sr2) s) := rfl

theorem exec_andImm (a b : Reg) (imm5 : BitVec 5) (s : State) :
    exec (.andImm a b imm5) s = .next (writeResult a (getReg s b &&& sext imm5) s) := rfl

theorem exec_not (a b : Reg) (s : State) : exec (.not a b) s = .next (writeResult a (~~~(getReg s b)) s) := rfl

@[simp] theorem getReg_writeResult_same (a : Reg) (v : Word) (s : State) : getReg (writeResult a v s) a = v := by
  rw [writeResult_eq, getReg_setcc, getReg_setReg_same]

/-! ## The value of AND with an immediate -/

/-- Below bit 5 the mask is the immediate, from there on its sign bit; a word has no bit from 16 on (R73). -/
theorem and_sext_getLsbD (x : Word) (imm5 : BitVec 5) (k : Nat) :
    (x &&& sext imm5).getLsbD k = (x.getLsbD k && (if k < 5 then imm5.getLsbD k else imm5.getLsbD 4)) := by
  rw [BitVec.getLsbD_and]
  by_cases hk : k < 16
  · rw [sext_getLsbD imm5 k hk]
  · rw [BitVec.getLsbD_of_ge x k (Nat.le_of_not_lt hk), Bool.false_and, Bool.false_and]

/-! ## The obligations -/

/-- Settles O8: the word sum is the sum of the unsigned readings modulo 65536. -/
theorem addRegisterForm : Obligations.AddRegisterForm := by
  unfold Obligations.AddRegisterForm
  intro a b sr2 ign s
  refine ⟨decode_addReg a b sr2 ign, _, exec_addReg a b sr2 s, ?_⟩
  rw [← BitVec.add_def]
  exact writeResult_onlyResultIn a _ s

/-- Settles O9: moving by the immediate's two's-complement value is adding its sign extension. -/
theorem addImmediateForm : Obligations.AddImmediateForm := by
  unfold Obligations.AddImmediateForm
  intro a b imm5 s
  refine ⟨decode_addImm a b imm5, _, exec_addImm a b imm5 s, ?_⟩
  rw [wordsFrom_toInt]
  exact writeResult_onlyResultIn a _ s

/-- Settles O10: the register form writes the and of the two words, read bit by bit. -/
theorem andRegisterForm : Obligations.AndRegisterForm := by
  unfold Obligations.AndRegisterForm
  intro a b sr2 ign s
  refine ⟨decode_andReg a b sr2 ign, _, exec_andReg a b sr2 s, ?_⟩
  rw [getReg_writeResult_same]
  exact ⟨writeResult_onlyResultIn a _ s, fun _ => BitVec.getLsbD_and⟩

/-- Settles O11: the immediate form writes the and with the sign extension, whose bits 15:5 are the sign bit. -/
theorem andImmediateForm : Obligations.AndImmediateForm := by
  unfold Obligations.AndImmediateForm
  intro a b imm5 s
  refine ⟨decode_andImm a b imm5, _, exec_andImm a b imm5 s, ?_⟩
  rw [getReg_writeResult_same]
  exact ⟨writeResult_onlyResultIn a _ s, and_sext_getLsbD (getReg s b) imm5⟩

/-- Settles O12: NOT writes the complement of the source, which is 0xFFFF minus it. -/
theorem notForm : Obligations.NotForm := by
  unfold Obligations.NotForm
  intro a b ign s
  refine ⟨decode_not a b ign, _, exec_not a b s, ?_⟩
  have complement : 0xFFFF#16 - getReg s b = ~~~(getReg s b) := BitVec.allOnes_sub_eq_not (getReg s b)
  rw [complement]
  exact writeResult_onlyResultIn a _ s

end Sys2Proof.Machine

/-!
PROOFS. JMP and JSR (41_control.md R82, R83). A control transfer is `setPc`, after the link where there is one, and
neither touches more than the pc and R7.
-/

namespace Sys2Proof.Machine

open Sys2Proof

/-! ## The meanings the executor gives -/

theorem exec_jmp (b : Reg) (s : State) : exec (.jmp b) s = .next (setPc (getReg s b) s) := rfl

theorem exec_jsr (off11 : BitVec 11) (s : State) :
    exec (.jsr off11) s = .next (setPc (s.pc + sext off11) (linkR7 s)) := rfl

/-! ## What a control transfer keeps -/

theorem keepsAllButPcAndRegs_refl (ds : List Reg) (s : State) : KeepsAllButPcAndRegs ds s s :=
  ⟨fun _ _ => rfl, rfl, fun _ => rfl, ⟨rfl, rfl⟩, ⟨rfl, rfl⟩, ⟨rfl, rfl⟩⟩

/-- The pc is not among what is kept, so it may be set to anything. -/
theorem keepsAllButPcAndRegs_setPc {ds : List Reg} {s u : State} (h : KeepsAllButPcAndRegs ds s u) (w : Word) :
    KeepsAllButPcAndRegs ds s (setPc w u) := h

theorem linkR7_keepsAllButPcAndRegs (s : State) : KeepsAllButPcAndRegs [7#3] s (linkR7 s) :=
  ⟨linkR7_keepsRegs s, rfl, fun _ => rfl, ⟨rfl, rfl⟩, ⟨rfl, rfl⟩, ⟨rfl, rfl⟩⟩

theorem getReg_seven_linkR7 (s : State) : getReg (linkR7 s) 7#3 = s.pc := getReg_setReg_same 7#3 s.pc s

/-! ## The obligations -/

/-- Settles O15: JMP only sets the pc, to the base register's value. -/
theorem jumpForm : Obligations.JumpForm := by
  unfold Obligations.JumpForm
  intro b hi lo s
  exact ⟨decode_jmp b hi lo, _, exec_jmp b s, setPc_pc _ s,
    keepsAllButPcAndRegs_setPc (keepsAllButPcAndRegs_refl [] s) _⟩

/-- Settles O16: JSR links, then sets the pc; adding the sign-extended offset is moving by its two's-complement value. -/
theorem jumpToSubroutineForm : Obligations.JumpToSubroutineForm := by
  unfold Obligations.JumpToSubroutineForm
  intro off11 s
  refine ⟨decode_jsr off11, _, exec_jsr off11 s, ?_, ?_, ?_⟩
  · rw [getReg_setPc]
    exact getReg_seven_linkR7 s
  · rw [setPc_pc, wordsFrom_toInt]
  · exact keepsAllButPcAndRegs_setPc (linkR7_keepsAllButPcAndRegs s) _

end Sys2Proof.Machine

/-!
PROOFS. LEA, ST, STR (42_load_store.md R93, R94, R96). Each computes its address in one of the modes of R97 and then makes
one update: LEA a `writeResult` of the address itself, the stores a `memWrite` at it.
-/

namespace Sys2Proof.Machine

open Sys2Proof

/-! ## The addressing modes (42_load_store.md R97) -/

/-- Moving by the offset's two's-complement value, as the statements count words, is adding its sign extension. -/
theorem wordsFrom_pc (off9 : BitVec 9) (s : State) : wordsFrom s.pc off9.toInt = pcRelative off9 s :=
  wordsFrom_toInt s.pc off9

theorem wordsFrom_getReg (b : Reg) (off6 : BitVec 6) (s : State) :
    wordsFrom (getReg s b) off6.toInt = baseOffset b off6 s :=
  wordsFrom_toInt (getReg s b) off6

/-! ## The meanings the executor gives -/

theorem exec_lea (a : Reg) (off9 : BitVec 9) (s : State) :
    exec (.lea a off9) s = .next (writeResult a (pcRelative off9 s) s) := rfl

theorem exec_st (a : Reg) (off9 : BitVec 9) (s : State) :
    exec (.st a off9) s = .next (memWrite (pcRelative off9 s) (getReg s a) s) := rfl

theorem exec_str (a b : Reg) (off6 : BitVec 6) (s : State) :
    exec (.str a b off6) s = .next (memWrite (baseOffset b off6 s) (getReg s a) s) := rfl

/-! ## What a store keeps -/

/-- A store consumes no answer, not even at a device address (20_memory.md R34). -/
theorem memWrite_keepsInput (addr v : Word) (s : State) : KeepsInput s (memWrite addr v s) :=
  ⟨memWrite_input addr v s, memWrite_inputPos addr v s⟩

/-! ## The obligations -/

/-- Settles O22: ST is one `memWrite` at the pc-relative address, in a memory whose canonical form makes the cell read
back. -/
theorem storeForm : Obligations.StoreForm := by
  unfold Obligations.StoreForm
  intro a off9 s hwf
  refine ⟨decode_st a off9, _, exec_st a off9 s, ?_, memWrite_keepsInput _ _ s⟩
  rw [wordsFrom_pc]
  exact stored_memWrite hwf _ _

/-- Settles O24: STR is one `memWrite` at base plus offset; the base is read from the state before the store, and no
register is written, so `a = b` is no case apart. -/
theorem storeBaseOffsetForm : Obligations.StoreBaseOffsetForm := by
  unfold Obligations.StoreBaseOffsetForm
  intro a b off6 s hwf
  refine ⟨decode_str a b off6, _, exec_str a b off6 s, ?_, memWrite_keepsInput _ _ s⟩
  rw [wordsFrom_getReg]
  exact stored_memWrite hwf _ _

/-- Settles O21: LEA writes the address itself as a result, through no bus read. -/
theorem loadEffectiveAddressForm : Obligations.LoadEffectiveAddressForm := by
  unfold Obligations.LoadEffectiveAddressForm
  intro a off9 s
  refine ⟨decode_lea a off9, _, exec_lea a off9 s, ?_⟩
  rw [wordsFrom_pc]
  exact writeResult_onlyResultIn a _ s

end Sys2Proof.Machine

/-!
PROOFS. OUT (43_system.md R102). After the link, which R100 makes part of every TRAP, the service emits one byte and that
is all it does.
-/

namespace Sys2Proof.Machine

open Sys2Proof

theorem exec_out (s : State) : exec .out s = .next (emit (lowByte (getReg (linkR7 s) 0#3)) (linkR7 s)) := rfl

theorem emit_eq_emitAll (b : Byte) (s : State) : emit b s = emitAll [b] s := rfl

/-- Emitting after the link is the whole effect of an output service: the link's frame leaves only the output open. -/
theorem emitAll_linkR7_onlyEmitted (text : List Byte) (s : State) : OnlyEmitted text s (emitAll text (linkR7 s)) := by
  obtain ⟨hregs, hpsr, hmem, hin, ⟨hout, hdiag⟩, hctl⟩ := linkR7_keepsAllButPcAndRegs s
  have hemitted : (emitAll text (linkR7 s)).output = s.output ++ text := by rw [emitAll_output, hout]
  exact ⟨hemitted, getReg_seven_linkR7 s, hregs, hpsr, rfl, hmem, hin, hdiag, hctl⟩

/-- Settles O27: OUT emits one byte after the link, and R0, read after it, is still the R0 of before. -/
theorem outService : Obligations.OutService := by
  unfold Obligations.OutService
  intro ign s
  refine ⟨decode_trap ign 0x21#8, _, exec_out s, ?_⟩
  rw [getReg_zero_linkR7, lowByte_eq, emit_eq_emitAll]
  exact emitAll_linkR7_onlyEmitted _ s

end Sys2Proof.Machine

/-!
SUPPORT and PROOFS. The start state (70_reset_and_hazards.md R141): what every memory cell holds after an image is loaded,
and the fields that reset and the image set.
-/

namespace Sys2Proof.Machine

open Sys2Proof

/-! ## What a load leaves in memory (70_reset_and_hazards.md R145) -/

/-- A cell's address counted from the next address on. -/
theorem add_ofNat_succ (addr : Word) (j : Nat) : addr + BitVec.ofNat 16 (j + 1) = addr + 1#16 + BitVec.ofNat 16 j := by
  rw [BitVec.add_assoc, ← BitVec.ofNat_add, Nat.add_comm j 1]

/-- Inside the address space no later cell of an image falls on its first one. -/
theorem ne_add_one_add_ofNat (addr : Word) {j : Nat} (h : j + 1 < memorySize) :
    addr ≠ addr + 1#16 + BitVec.ofNat 16 j := by
  unfold memorySize at h
  bv_omega

/-- A cell outside the loaded range keeps its content, whatever the form of the memory. -/
theorem Memory.read_load_outside {a addr : Word} {ws : List Word}
    (h : ∀ j < ws.length, a ≠ addr + BitVec.ofNat 16 j) (m : Memory) :
    Memory.read (Memory.load m addr ws) a = Memory.read m a := by
  induction ws generalizing m addr with
  | nil => rfl
  | cons w rest ih =>
    have hfirst : a ≠ addr := by simpa using h 0 (Nat.zero_lt_succ _)
    have hrest : ∀ j < rest.length, a ≠ addr + 1#16 + BitVec.ofNat 16 j := fun j hj =>
      add_ofNat_succ addr j ▸ h (j + 1) (Nat.succ_lt_succ hj)
    calc Memory.read (Memory.load (Memory.write m addr w) (addr + 1#16) rest) a
      _ = Memory.read (Memory.write m addr w) a := ih hrest _
      _ = Memory.read m a := Memory.read_write_ne hfirst m w

/-- A cell inside the loaded range holds its word: no later word of the image overwrites it, since the image is no longer
than the address space. -/
theorem Memory.read_load_inside {m : Memory} (hm : Memory.wf m = true) (addr : Word) {ws : List Word}
    (hlen : ws.length ≤ memorySize) {j : Nat} (h : j < ws.length) :
    Memory.read (Memory.load m addr ws) (addr + BitVec.ofNat 16 j) = ws[j] := by
  induction ws generalizing m addr j with
  | nil => exact absurd h (Nat.not_lt_zero j)
  | cons w rest ih =>
    rw [List.length_cons] at hlen h
    cases j with
    | zero =>
      have hlater : ∀ k < rest.length, addr ≠ addr + 1#16 + BitVec.ofNat 16 k := fun k hk =>
        ne_add_one_add_ofNat addr (by omega)
      calc Memory.read (Memory.load (Memory.write m addr w) (addr + 1#16) rest) (addr + 0#16)
        _ = Memory.read (Memory.load (Memory.write m addr w) (addr + 1#16) rest) addr := by rw [BitVec.add_zero]
        _ = Memory.read (Memory.write m addr w) addr := Memory.read_load_outside hlater _
        _ = w := Memory.read_write_same hm addr w
    | succ k =>
      rw [add_ofNat_succ]
      exact ih (Memory.write_wf hm addr w) _ (by omega) (by omega)

/-! ## The obligation -/

theorem Image.length_le_of_fits {img : Image} (h : img.fits = true) : img.words.length ≤ memorySize :=
  (Nat.le_add_left _ _).trans (of_decide_eq_true h)

/-- Settles O58: the fields are those of `State.boot`, its registers are those of reset, and its memory is the image
loaded into a memory of zeros. -/
theorem startStateHoldsTheImage : Obligations.StartStateHoldsTheImage := by
  unfold Obligations.StartStateHoldsTheImage
  rintro p input img s hfits rfl
  have hregs : ∀ r, getReg (State.boot p input img) r = 0x0000#16 := registersAreZeroAtReset p
  refine ⟨hregs, rfl, rfl, rfl, rfl, rfl, rfl, ?inside, ?outside⟩
  case inside =>
    intro j h
    exact Memory.read_load_inside rfl img.origin (Image.length_le_of_fits hfits) h
  case outside =>
    intro a ha
    exact Memory.read_load_outside ha []

end Sys2Proof.Machine

/-!
SUPPORT and PROOFS. The encoder and the decoder as each other's inverse (30_encoding.md sections 1 to 4): every
well-formed instruction comes back from its word, a word comes back in every bit its instruction uses, and the ignored
bits take no part in decoding.
-/

namespace Sys2Proof

/-! ## From the instruction to its word and back -/

/-- A vector of no service is TRAP's own (43_system.md R107). -/
theorem decodeTrap_of_not_service {v : Byte} (h : v ∉ serviceVectors) : decodeTrap v = .trap v := by
  simp only [serviceVectors, List.mem_cons, List.not_mem_nil, or_false, not_or] at h
  simp [decodeTrap, h]

theorem decode_encode {i : Instr} (h : i.wf = true) : decode (encode i) = i := by
  cases i with
  | br n z p off9 => exact decode_br n z p off9
  | addReg a b sr2 => exact decode_addReg a b sr2 0b00#2
  | addImm a b imm5 => exact decode_addImm a b imm5
  | ld a off9 => exact decode_ld a off9
  | st a off9 => exact decode_st a off9
  | jsrr b => exact decode_jsrr b 0b00#2 0b000000#6
  | jsr off11 => exact decode_jsr off11
  | andReg a b sr2 => exact decode_andReg a b sr2 0b00#2
  | andImm a b imm5 => exact decode_andImm a b imm5
  | ldr a b off6 => exact decode_ldr a b off6
  | str a b off6 => exact decode_str a b off6
  | rti => exact decode_rti 0b000000000000#12
  | not a b => exact decode_not a b 0b111111#6
  | ldi a off9 => exact decode_ldi a off9
  | sti a off9 => exact decode_sti a off9
  | jmp b => exact decode_jmp b 0b000#3 0b000000#6
  | invalid => exact decode_invalid 0b000000000000#12
  | lea a off9 => exact decode_lea a off9
  | trap v =>
    have hv : v ∉ serviceVectors := by simpa [Instr.wf] using h
    exact (decode_trap 0b0000#4 v).trans (decodeTrap_of_not_service hv)
  | getc => exact decode_trap 0b0000#4 0x20#8
  | out => exact decode_trap 0b0000#4 0x21#8
  | puts => exact decode_trap 0b0000#4 0x22#8
  | inp => exact decode_trap 0b0000#4 0x23#8
  | putsp => exact decode_trap 0b0000#4 0x24#8
  | halt => exact decode_trap 0b0000#4 0x25#8

/-! ## The words with ignored bits, masked (30_encoding.md R57)

The mask of the used bits has the same cut as the word, so the and goes group by group, and an ignored group is anded
with zeros. -/

theorem and_append_ignored {n k : Nat} (x m : BitVec n) (ign ign' : BitVec k) :
    (x ++ ign) &&& (m ++ 0#k) = (x ++ ign') &&& (m ++ 0#k) := by
  simp only [BitVec.and_append, BitVec.and_zero]

theorem and_append_congr {n k : Nat} {x x' m : BitVec n} (h : x &&& m = x' &&& m) (y p : BitVec k) :
    (x ++ y) &&& (m ++ p) = (x' ++ y) &&& (m ++ p) := by
  simp only [BitVec.and_append, h]

theorem masked_rrr (o : BitVec 4) (a b sr2 : Reg) (ign ign' : BitVec 2) :
    (o ++ a ++ b ++ 0b0#1 ++ ign ++ sr2) &&& ~~~0x0018#16 = (o ++ a ++ b ++ 0b0#1 ++ ign' ++ sr2) &&& ~~~0x0018#16 := by
  have mask : ~~~0x0018#16 = 0x7FF#11 ++ 0#2 ++ 0b111#3 := by decide
  rw [mask]
  exact and_append_congr (and_append_ignored (o ++ a ++ b ++ 0b0#1) _ ign ign') sr2 _

theorem masked_rr (o : BitVec 4) (a b : Reg) (ign ign' : BitVec 6) :
    (o ++ a ++ b ++ ign) &&& ~~~0x003F#16 = (o ++ a ++ b ++ ign') &&& ~~~0x003F#16 := by
  have mask : ~~~0x003F#16 = 0x3FF#10 ++ 0#6 := by decide
  rw [mask]
  exact and_append_ignored (o ++ a ++ b) _ ign ign'

theorem masked_r (o : BitVec 4) (hi hi' b : Reg) (lo lo' : BitVec 6) :
    (o ++ hi ++ b ++ lo) &&& ~~~0x0E3F#16 = (o ++ hi' ++ b ++ lo') &&& ~~~0x0E3F#16 := by
  have mask : ~~~0x0E3F#16 = 0xF#4 ++ 0#3 ++ 0b111#3 ++ 0#6 := by decide
  rw [mask]
  calc (o ++ hi ++ b ++ lo) &&& (0xF#4 ++ 0#3 ++ 0b111#3 ++ 0#6)
    _ = (o ++ hi ++ b ++ lo') &&& (0xF#4 ++ 0#3 ++ 0b111#3 ++ 0#6) := and_append_ignored _ _ lo lo'
    _ = (o ++ hi' ++ b ++ lo') &&& (0xF#4 ++ 0#3 ++ 0b111#3 ++ 0#6) :=
      and_append_congr (and_append_congr (and_append_ignored o _ hi hi') b _) lo' _

theorem masked_jr (o : BitVec 4) (hi hi' : BitVec 2) (b : Reg) (lo lo' : BitVec 6) :
    (o ++ 0b0#1 ++ hi ++ b ++ lo) &&& ~~~0x063F#16 = (o ++ 0b0#1 ++ hi' ++ b ++ lo') &&& ~~~0x063F#16 := by
  have mask : ~~~0x063F#16 = 0x1F#5 ++ 0#2 ++ 0b111#3 ++ 0#6 := by decide
  rw [mask]
  calc (o ++ 0b0#1 ++ hi ++ b ++ lo) &&& (0x1F#5 ++ 0#2 ++ 0b111#3 ++ 0#6)
    _ = (o ++ 0b0#1 ++ hi ++ b ++ lo') &&& (0x1F#5 ++ 0#2 ++ 0b111#3 ++ 0#6) := and_append_ignored _ _ lo lo'
    _ = (o ++ 0b0#1 ++ hi' ++ b ++ lo') &&& (0x1F#5 ++ 0#2 ++ 0b111#3 ++ 0#6) :=
      and_append_congr (and_append_congr (and_append_ignored (o ++ 0b0#1) _ hi hi') b _) lo' _

theorem masked_t (o ign ign' : BitVec 4) (v : Byte) :
    (o ++ ign ++ v) &&& ~~~0x0F00#16 = (o ++ ign' ++ v) &&& ~~~0x0F00#16 := by
  have mask : ~~~0x0F00#16 = 0xF#4 ++ 0#4 ++ 0xFF#8 := by decide
  rw [mask]
  exact and_append_congr (and_append_ignored o _ ign ign') v _

theorem masked_n (o : BitVec 4) (ign ign' : BitVec 12) :
    (o ++ ign) &&& ~~~0x0FFF#16 = (o ++ ign') &&& ~~~0x0FFF#16 := by
  have mask : ~~~0x0FFF#16 = 0xF#4 ++ 0#12 := by decide
  rw [mask]
  exact and_append_ignored o _ ign ign'

/-! ## From a word to its instruction and back -/

/-- Every TRAP word's instruction is encoded with the vector the word had. -/
theorem encode_decodeTrap (v : Byte) : encode (decodeTrap v) = opcodeCode .trap ++ 0b0000#4 ++ v := by
  rcases decodeTrap_cases v with ⟨rfl, h⟩ | ⟨rfl, h⟩ | ⟨rfl, h⟩ | ⟨rfl, h⟩ | ⟨rfl, h⟩ | ⟨rfl, h⟩ | ⟨-, h⟩ <;>
    rw [h] <;> rfl

theorem ignoredBits_decodeTrap (v : Byte) : ignoredBits (decodeTrap v) = 0x0F00#16 := by
  unfold decodeTrap
  split_ifs <;> rfl

theorem encode_decode_usedBits (w : Word) :
    encode (decode w) &&& ~~~(ignoredBits (decode w)) = w &&& ~~~(ignoredBits (decode w)) := by
  induction w using word_cases with
  | br n z p off9 => rw [decode_br]; rfl
  | addReg a b sr2 ign => rw [decode_addReg]; exact masked_rrr _ a b sr2 _ ign
  | addImm a b imm5 => rw [decode_addImm]; rfl
  | ld a off9 => rw [decode_ld]; rfl
  | st a off9 => rw [decode_st]; rfl
  | jsrr hi b lo => rw [decode_jsrr]; exact masked_jr _ _ hi b _ lo
  | jsr off11 => rw [decode_jsr]; rfl
  | andReg a b sr2 ign => rw [decode_andReg]; exact masked_rrr _ a b sr2 _ ign
  | andImm a b imm5 => rw [decode_andImm]; rfl
  | ldr a b off6 => rw [decode_ldr]; rfl
  | str a b off6 => rw [decode_str]; rfl
  | rti ign => rw [decode_rti]; exact masked_n _ _ ign
  | not a b ign => rw [decode_not]; exact masked_rr _ a b _ ign
  | ldi a off9 => rw [decode_ldi]; rfl
  | sti a off9 => rw [decode_sti]; rfl
  | jmp hi b lo => rw [decode_jmp]; exact masked_r _ _ hi b _ lo
  | invalid ign => rw [decode_invalid]; exact masked_n _ _ ign
  | lea a off9 => rw [decode_lea]; rfl
  | trap ign v => rw [decode_trap, ignoredBits_decodeTrap, encode_decodeTrap]; exact masked_t _ _ ign v

/-! ## Words that differ in ignored bits only -/

/-- Outside the bits of `m` the words are equal. -/
def AgreeOutside (m w w' : Word) : Prop := w' &&& ~~~m = w &&& ~~~m

theorem AgreeOutside.getLsbD {m w w' : Word} (h : AgreeOutside m w w') {k : Nat} (hk : k < 16)
    (hm : m.getLsbD k = false) : w'.getLsbD k = w.getLsbD k := by
  have hand := congrArg (·.getLsbD k) h
  simpa only [BitVec.getLsbD_and, BitVec.getLsbD_not, hk, hm, decide_true, Bool.not_false, Bool.and_true] using hand

/-- A field that holds none of the bits of `m` is the same in both words. -/
theorem AgreeOutside.field {m w w' : Word} (h : AgreeOutside m w w') (start len : Nat) (hfit : start + len ≤ 16)
    (hm : m.extractLsb' start len = 0#len) : w'.extractLsb' start len = w.extractLsb' start len := by
  apply BitVec.eq_of_getLsbD_eq
  intro k hk
  have hmk := congrArg (·.getLsbD k) hm
  simp only [BitVec.getLsbD_extractLsb', hk, decide_true, Bool.true_and, BitVec.getLsbD_zero] at hmk ⊢
  exact h.getLsbD (by omega) hmk

/-- An instruction without ignored bits has one word. -/
theorem AgreeOutside.eq {w w' : Word} (h : AgreeOutside 0x0000#16 w w') : w' = w := by
  have mask : ~~~0x0000#16 = BitVec.allOnes 16 := by decide
  simpa only [AgreeOutside, mask, BitVec.and_allOnes] using h

theorem AgreeOutside.rrr {o : BitVec 4} {a b sr2 : Reg} {ign : BitVec 2} {w' : Word}
    (h : AgreeOutside 0x0018#16 (o ++ a ++ b ++ 0b0#1 ++ ign ++ sr2) w') :
    ∃ ign' : BitVec 2, w' = o ++ a ++ b ++ 0b0#1 ++ ign' ++ sr2 := by
  obtain ⟨ho, ha, hb, hc, h5⟩ := fields_rrr o a b sr2 ign
  have ho' : fieldOpcode w' = o := (h.field 12 4 (by decide) (by decide)).trans ho
  have ha' : fieldA w' = a := (h.field 9 3 (by decide) (by decide)).trans ha
  have hb' : fieldB w' = b := (h.field 6 3 (by decide) (by decide)).trans hb
  have hc' : fieldSr2 w' = sr2 := (h.field 0 3 (by decide) (by decide)).trans hc
  have hw := shape_rrr w' ((h.getLsbD (by decide) (by decide)).trans h5)
  rw [ho', ha', hb', hc'] at hw
  exact ⟨_, hw⟩

theorem AgreeOutside.rr {o : BitVec 4} {a b : Reg} {ign : BitVec 6} {w' : Word}
    (h : AgreeOutside 0x003F#16 (o ++ a ++ b ++ ign) w') : ∃ ign' : BitVec 6, w' = o ++ a ++ b ++ ign' := by
  obtain ⟨ho, ha, hb, -⟩ := fields_rro o a b ign
  have ho' : fieldOpcode w' = o := (h.field 12 4 (by decide) (by decide)).trans ho
  have ha' : fieldA w' = a := (h.field 9 3 (by decide) (by decide)).trans ha
  have hb' : fieldB w' = b := (h.field 6 3 (by decide) (by decide)).trans hb
  have hw := shape_rro w'
  rw [ho', ha', hb'] at hw
  exact ⟨_, hw⟩

theorem AgreeOutside.r {o : BitVec 4} {hi b : Reg} {lo : BitVec 6} {w' : Word}
    (h : AgreeOutside 0x0E3F#16 (o ++ hi ++ b ++ lo) w') :
    ∃ (hi' : BitVec 3) (lo' : BitVec 6), w' = o ++ hi' ++ b ++ lo' := by
  obtain ⟨ho, hb⟩ := fields_r o hi b lo
  have ho' : fieldOpcode w' = o := (h.field 12 4 (by decide) (by decide)).trans ho
  have hb' : fieldB w' = b := (h.field 6 3 (by decide) (by decide)).trans hb
  have hw := shape_rro w'
  rw [ho', hb'] at hw
  exact ⟨_, _, hw⟩

theorem AgreeOutside.jr {o : BitVec 4} {hi : BitVec 2} {b : Reg} {lo : BitVec 6} {w' : Word}
    (h : AgreeOutside 0x063F#16 (o ++ 0b0#1 ++ hi ++ b ++ lo) w') :
    ∃ (hi' : BitVec 2) (lo' : BitVec 6), w' = o ++ 0b0#1 ++ hi' ++ b ++ lo' := by
  obtain ⟨ho, hb, h11⟩ := fields_jr o hi b lo
  have ho' : fieldOpcode w' = o := (h.field 12 4 (by decide) (by decide)).trans ho
  have hb' : fieldB w' = b := (h.field 6 3 (by decide) (by decide)).trans hb
  have hw := shape_jr w' ((h.getLsbD (by decide) (by decide)).trans h11)
  rw [ho', hb'] at hw
  exact ⟨_, _, hw⟩

theorem AgreeOutside.t {o ign : BitVec 4} {v : Byte} {w' : Word}
    (h : AgreeOutside 0x0F00#16 (o ++ ign ++ v) w') : ∃ ign' : BitVec 4, w' = o ++ ign' ++ v := by
  obtain ⟨ho, hv⟩ := fields_t o ign v
  have ho' : fieldOpcode w' = o := (h.field 12 4 (by decide) (by decide)).trans ho
  have hv' : fieldVect8 w' = v := (h.field 0 8 (by decide) (by decide)).trans hv
  have hw := shape_t w'
  rw [ho', hv'] at hw
  exact ⟨_, hw⟩

theorem AgreeOutside.n {o : BitVec 4} {ign : BitVec 12} {w' : Word} (h : AgreeOutside 0x0FFF#16 (o ++ ign) w') :
    ∃ ign' : BitVec 12, w' = o ++ ign' := by
  have ho' : fieldOpcode w' = o := (h.field 12 4 (by decide) (by decide)).trans (fields_n o ign)
  have hw := shape_n w'
  rw [ho'] at hw
  exact ⟨_, hw⟩

theorem decode_eq_of_agreeOutside (w w' : Word) (h : AgreeOutside (ignoredBits (decode w)) w w') :
    decode w' = decode w := by
  induction w using word_cases with
  | br n z p off9 => rw [decode_br] at h; rw [AgreeOutside.eq h]
  | addReg a b sr2 ign =>
    rw [decode_addReg] at h ⊢
    obtain ⟨ign', rfl⟩ := AgreeOutside.rrr h
    exact decode_addReg a b sr2 ign'
  | addImm a b imm5 => rw [decode_addImm] at h; rw [AgreeOutside.eq h]
  | ld a off9 => rw [decode_ld] at h; rw [AgreeOutside.eq h]
  | st a off9 => rw [decode_st] at h; rw [AgreeOutside.eq h]
  | jsrr hi b lo =>
    rw [decode_jsrr] at h ⊢
    obtain ⟨hi', lo', rfl⟩ := AgreeOutside.jr h
    exact decode_jsrr b hi' lo'
  | jsr off11 => rw [decode_jsr] at h; rw [AgreeOutside.eq h]
  | andReg a b sr2 ign =>
    rw [decode_andReg] at h ⊢
    obtain ⟨ign', rfl⟩ := AgreeOutside.rrr h
    exact decode_andReg a b sr2 ign'
  | andImm a b imm5 => rw [decode_andImm] at h; rw [AgreeOutside.eq h]
  | ldr a b off6 => rw [decode_ldr] at h; rw [AgreeOutside.eq h]
  | str a b off6 => rw [decode_str] at h; rw [AgreeOutside.eq h]
  | rti ign =>
    rw [decode_rti] at h ⊢
    obtain ⟨ign', rfl⟩ := AgreeOutside.n h
    exact decode_rti ign'
  | not a b ign =>
    rw [decode_not] at h ⊢
    obtain ⟨ign', rfl⟩ := AgreeOutside.rr h
    exact decode_not a b ign'
  | ldi a off9 => rw [decode_ldi] at h; rw [AgreeOutside.eq h]
  | sti a off9 => rw [decode_sti] at h; rw [AgreeOutside.eq h]
  | jmp hi b lo =>
    rw [decode_jmp] at h ⊢
    obtain ⟨hi', lo', rfl⟩ := AgreeOutside.r h
    exact decode_jmp b hi' lo'
  | invalid ign =>
    rw [decode_invalid] at h ⊢
    obtain ⟨ign', rfl⟩ := AgreeOutside.n h
    exact decode_invalid ign'
  | lea a off9 => rw [decode_lea] at h; rw [AgreeOutside.eq h]
  | trap ign v =>
    rw [decode_trap, ignoredBits_decodeTrap] at h
    obtain ⟨ign', rfl⟩ := AgreeOutside.t h
    rw [decode_trap, decode_trap]

/-! ## The opcode table's rows (30_encoding.md R55)

The rows' masks look at the opcode, at bit 11 and at bit 5 only, so the 64 words that are zero elsewhere stand for
all. -/

/-- The word with this opcode code, bit 11 and bit 5, and zeros elsewhere. -/
def rowWord (code : BitVec 4) (b11 b5 : Bool) : Word :=
  code ++ BitVec.ofBool b11 ++ 0b00000#5 ++ BitVec.ofBool b5 ++ 0b00000#5

/-- The word that stands for `w`. -/
def rowWordOf (w : Word) : Word := rowWord (fieldOpcode w) (w.getLsbD 11) (w.getLsbD 5)

theorem rowWordOf_eq (w : Word) : rowWordOf w = w &&& 0xF820#16 := by
  apply BitVec.eq_of_getLsbD_eq
  intro i hi
  interval_cases i <;> simp only [rowWordOf, rowWord, BitVec.getLsbD_append] <;> simp [fieldOpcode]

theorem and_rowWordOf {m : Word} (hm : m &&& 0xF820#16 = m) (w : Word) : rowWordOf w &&& m = w &&& m := by
  rw [rowWordOf_eq, BitVec.and_assoc, BitVec.and_comm _ m, hm]

theorem opcodeRows_mask : ∀ row ∈ opcodeRows, row.mask &&& 0xF820#16 = row.mask := by decide

theorem opcodeRows_unique (code : BitVec 4) (b11 b5 : Bool) :
    ∃ row ∈ opcodeRows, rowWord code b11 b5 &&& row.mask = row.pattern
      ∧ row.name = firstLevelName (decode (rowWord code b11 b5))
      ∧ ∀ row' ∈ opcodeRows, rowWord code b11 b5 &&& row'.mask = row'.pattern → row' = row := by
  revert code b11 b5
  decide

theorem firstLevelName_decodeTrap (v : Byte) : firstLevelName (decodeTrap v) = "TRAP" := by
  unfold decodeTrap
  split_ifs <;> rfl

/-- The row of a word's instruction depends on the opcode, bit 11 and bit 5 only. -/
theorem firstLevelName_decode_congr {w w' : Word} (hop : fieldOpcode w' = fieldOpcode w)
    (h11 : w'.getLsbD 11 = w.getLsbD 11) (h5 : w'.getLsbD 5 = w.getLsbD 5) :
    firstLevelName (decode w') = firstLevelName (decode w) := by
  simp only [decode, hop, h11, h5]
  cases opcodeMap (fieldOpcode w) with
  | add | and => cases w.getLsbD 5 <;> rfl
  | jsr => cases w.getLsbD 11 <;> rfl
  | trap => exact (firstLevelName_decodeTrap _).trans (firstLevelName_decodeTrap _).symm
  | br | ld | st | ldr | str | rti | not | ldi | sti | jmp | invalid | lea => rfl

theorem firstLevelName_decode_rowWordOf (w : Word) :
    firstLevelName (decode (rowWordOf w)) = firstLevelName (decode w) := by
  have h : AgreeOutside 0x07DF#16 w (rowWordOf w) := and_rowWordOf (by decide) w
  exact firstLevelName_decode_congr (h.field 12 4 (by decide) (by decide)) (h.getLsbD (by decide) (by decide))
    (h.getLsbD (by decide) (by decide))

theorem opcodeRows_matches_iff {row : OpcodeRow} (hrow : row ∈ opcodeRows) (w : Word) :
    rowWordOf w &&& row.mask = row.pattern ↔ w &&& row.mask = row.pattern := by
  rw [and_rowWordOf (opcodeRows_mask row hrow)]

/-- Every word matches one first-level row, its instruction's, and no other. -/
theorem opcodeRows_existsUnique (w : Word) :
    ∃ row ∈ opcodeRows, w &&& row.mask = row.pattern ∧ row.name = firstLevelName (decode w)
      ∧ ∀ row' ∈ opcodeRows, w &&& row'.mask = row'.pattern → row' = row := by
  obtain ⟨row, hrow, hmatch, hname, honly⟩ := opcodeRows_unique (fieldOpcode w) (w.getLsbD 11) (w.getLsbD 5)
  exact ⟨row, hrow, (opcodeRows_matches_iff hrow w).1 hmatch, hname.trans (firstLevelName_decode_rowWordOf w),
    fun row' hrow' h => honly row' hrow' ((opcodeRows_matches_iff hrow' w).2 h)⟩

/-! ## The rows under TRAP (30_encoding.md section 6) -/

/-- A service's row fixes bits 15:12 and 7:0. -/
theorem trapMask_iff (w p : Word) :
    w &&& 0xF0FF#16 = p &&& 0xF0FF#16 ↔ fieldOpcode w = fieldOpcode p ∧ fieldVect8 w = fieldVect8 p := by
  constructor
  · intro h
    have hagree : AgreeOutside 0x0F00#16 p w := h
    exact ⟨hagree.field 12 4 (by decide) (by decide), hagree.field 0 8 (by decide) (by decide)⟩
  · rintro ⟨hop, hv⟩
    rw [shape_t w, shape_t p, hop, hv]
    exact masked_t _ _ _ _

theorem opcodeOf_decodeTrap (v : Byte) : opcodeOf (decodeTrap v) = .trap := by
  unfold decodeTrap
  split_ifs <;> rfl

theorem opcodeOf_decode (w : Word) : opcodeOf (decode w) = opcodeMap (fieldOpcode w) := by
  unfold decode
  cases opcodeMap (fieldOpcode w) with
  | add | and => cases w.getLsbD 5 <;> rfl
  | jsr => cases w.getLsbD 11 <;> rfl
  | trap => exact opcodeOf_decodeTrap _
  | br | ld | st | ldr | str | rti | not | ldi | sti | jmp | invalid | lea => rfl

theorem firstLevelName_mem (i : Instr) : firstLevelName i ∈ opcodeRows.map (·.name) := by
  cases i <;> simp [firstLevelName, rowName, opcodeRows]

theorem trapRows_name_ne : ∀ row ∈ trapRows, row.name ∉ opcodeRows.map (·.name) := by decide

/-- An instruction under a service's name is a TRAP. -/
theorem opcodeOf_of_trapRow {row : OpcodeRow} (hrow : row ∈ trapRows) {i : Instr} (hname : rowName i = row.name) :
    opcodeOf i = .trap := by
  have hmem := firstLevelName_mem i
  have hne := trapRows_name_ne row hrow
  rw [← hname] at hne
  cases i with
  | trap | getc | out | puts | inp | putsp | halt => rfl
  | br | addReg | addImm | ld | st | jsrr | jsr | andReg | andImm | ldr | str | rti | not | ldi | sti | jmp | invalid
  | lea => exact absurd hmem hne

theorem trapRows_form : ∀ row ∈ trapRows,
    row.mask = 0xF0FF#16 ∧ row.pattern &&& 0xF0FF#16 = row.pattern ∧ fieldOpcode row.pattern = 0b1111#4
      ∧ fieldVect8 row.pattern ∈ serviceVectors := by decide

/-- Among the TRAP vectors a service's row takes the service's own. -/
theorem trapRows_vector (v : Byte) {row : OpcodeRow} (hrow : row ∈ trapRows) :
    v = fieldVect8 row.pattern ↔ rowName (decodeTrap v) = row.name := by
  rcases decodeTrap_cases v with ⟨rfl, -⟩ | ⟨rfl, -⟩ | ⟨rfl, -⟩ | ⟨rfl, -⟩ | ⟨rfl, -⟩ | ⟨rfl, -⟩ | ⟨hv, h⟩
  iterate 6 (revert row; decide)
  obtain ⟨-, -, -, hservice⟩ := trapRows_form row hrow
  rw [h]
  constructor
  · intro e
    exact absurd (e ▸ hservice) hv
  · intro e
    exact absurd (e ▸ firstLevelName_mem (.trap v)) (trapRows_name_ne row hrow)

/-- A word matches a service's row exactly when it decodes to that service. -/
theorem trapRows_matches_iff {row : OpcodeRow} (hrow : row ∈ trapRows) (w : Word) :
    w &&& row.mask = row.pattern ↔ rowName (decode w) = row.name := by
  obtain ⟨hmask, hpattern, hop, -⟩ := trapRows_form row hrow
  rw [hmask, ← hpattern, trapMask_iff, hop]
  by_cases htrap : fieldOpcode w = 0b1111#4
  · have hdecode : decode w = decodeTrap (fieldVect8 w) := by
      conv_lhs => rw [shape_t w, htrap]
      exact decode_trap _ _
    rw [hdecode, ← trapRows_vector _ hrow]
    exact and_iff_right htrap
  · refine iff_of_false (fun h => htrap h.1) fun hname => htrap ?_
    rw [← opcodeCode_opcodeMap (fieldOpcode w), ← opcodeOf_decode, opcodeOf_of_trapRow hrow hname]
    rfl

theorem decodeTrap_wf (v : Byte) : (decodeTrap v).wf = true := by
  rcases decodeTrap_cases v with ⟨-, h⟩ | ⟨-, h⟩ | ⟨-, h⟩ | ⟨-, h⟩ | ⟨-, h⟩ | ⟨-, h⟩ | ⟨hv, h⟩ <;> rw [h]
  iterate 6 rfl
  simpa [Instr.wf] using hv

theorem decode_wf (w : Word) : (decode w).wf = true := by
  unfold decode
  cases opcodeMap (fieldOpcode w) with
  | add | and => cases w.getLsbD 5 <;> rfl
  | jsr => cases w.getLsbD 11 <;> rfl
  | trap => exact decodeTrap_wf _
  | br | ld | st | ldr | str | rti | not | ldi | sti | jmp | invalid | lea => rfl

/-! ## The obligations -/

/-- Settles O1: the word of each well-formed instruction is one of its row, with the fields the instruction holds. -/
theorem decodeOfEncodeIsTheInstruction : Obligations.DecodeOfEncodeIsTheInstruction := by
  unfold Obligations.DecodeOfEncodeIsTheInstruction
  exact fun _ hwf => decode_encode hwf

/-- Settles O2: a word of each row and the word its instruction is encoded to differ only where the mask is zero. -/
theorem encodeOfDecodeRestoresUsedBits : Obligations.EncodeOfDecodeRestoresUsedBits := by
  unfold Obligations.EncodeOfDecodeRestoresUsedBits
  exact encode_decode_usedBits

/-- Settles O3: a word that agrees with a row's word outside the ignored bits is a word of that row with the same used
fields. -/
theorem ignoredBitsTakeNoPartInDecoding : Obligations.IgnoredBitsTakeNoPartInDecoding := by
  unfold Obligations.IgnoredBitsTakeNoPartInDecoding
  exact ⟨decode_eq_of_agreeOutside, fun _ _ _ => ⟨rfl, rfl⟩, fun _ _ => ⟨rfl, rfl, rfl⟩, rfl, rfl,
    ignoredBits_decodeTrap⟩

/-- Settles O4: bits 15:12, 11 and 5 decide the first-level row, bits 15:12 and 7:0 a service's. -/
theorem everyWordMatchesExactlyItsRow : Obligations.EveryWordMatchesExactlyItsRow := by
  unfold Obligations.EveryWordMatchesExactlyItsRow
  exact fun w => ⟨opcodeRows_existsUnique w, fun _ hrow => trapRows_matches_iff hrow w, decode_wf w⟩

/-- Settles O5: each word, decoded. -/
theorem workedExampleWordsDecode : Obligations.WorkedExampleWordsDecode := by
  unfold Obligations.WorkedExampleWordsDecode
  decide

end Sys2Proof

/-!
PROOFS. Writes to the memory bus, and memories as data (10_state.md R20, 20_memory.md R34).
-/

namespace Sys2Proof.Machine

open Sys2Proof

/-- Canonical lists from a bound on are equal when they read alike at every address: the first entries agree, since each
list's first address is the lowest that does not read 0x0000. -/
theorem Memory.eq_of_lookup_eq {lo : Nat} {m m' : Memory} (hm : Memory.wfFrom lo m = true)
    (hm' : Memory.wfFrom lo m' = true) (h : ∀ a, Memory.lookup m a = Memory.lookup m' a) : m = m' := by
  induction m generalizing lo m' with
  | nil =>
    cases m' with
    | nil => rfl
    | cons e rest' =>
      obtain ⟨k', v'⟩ := e
      obtain ⟨-, -, hv', -⟩ := Memory.wfFrom_cons.1 hm'
      have hk' := h k'
      simp only [Memory.lookup, if_true] at hk'
      exact absurd hk'.symm hv'
  | cons e rest ih =>
    obtain ⟨k, v⟩ := e
    obtain ⟨-, -, hv, hrest⟩ := Memory.wfFrom_cons.1 hm
    cases m' with
    | nil =>
      have hk := h k
      simp only [Memory.lookup, if_true] at hk
      exact absurd hk hv
    | cons e' rest' =>
      obtain ⟨k', v'⟩ := e'
      obtain ⟨-, -, hv', hrest'⟩ := Memory.wfFrom_cons.1 hm'
      have hk := h k
      have hk' := h k'
      simp only [Memory.lookup, if_true] at hk hk'
      obtain hlt | rfl | hlt := Nat.lt_trichotomy k k'
      · rw [if_neg (by omega), Memory.lookup_below (by omega) hrest'] at hk
        exact absurd hk hv
      · simp only [if_true] at hk
        have hbelow : rest = rest' := by
          refine ih hrest hrest' fun a => ?_
          by_cases ha : k = a
          · subst ha
            rw [Memory.lookup_below (Nat.lt_succ_self k) hrest, Memory.lookup_below (Nat.lt_succ_self k) hrest']
          · simpa only [Memory.lookup, if_neg ha] using h a
        rw [hk, hbelow]
      · rw [if_neg (by omega), Memory.lookup_below (by omega) hrest] at hk'
        exact absurd hk'.symm hv'

/-- Reading alike at the 65536 addresses is reading alike everywhere, since nothing is listed past them. -/
theorem Memory.lookup_eq_of_read_eq {m m' : Memory} (hm : Memory.wf m = true) (hm' : Memory.wf m' = true)
    (h : ∀ a, Memory.read m a = Memory.read m' a) (a : Nat) : Memory.lookup m a = Memory.lookup m' a := by
  by_cases ha : a < memorySize
  · have hread := h (BitVec.ofNat 16 a)
    have htoNat : (BitVec.ofNat 16 a).toNat = a := Nat.mod_eq_of_lt ha
    simpa only [Memory.read, htoNat] using hread
  · rw [Memory.lookup_outside (Nat.le_of_not_lt ha) hm, Memory.lookup_outside (Nat.le_of_not_lt ha) hm']

/-- Settles O38: read after write at the same and at another address, and the kept canonical form. -/
theorem writeStoresAndDoesNothingElse : Obligations.WriteStoresAndDoesNothingElse := by
  unfold Obligations.WriteStoresAndDoesNothingElse
  exact fun addr v s hwf => ⟨Memory.read_write_same hwf addr v, fun _ ha => Memory.read_write_ne ha s.mem v, rfl,
    Memory.write_wf hwf addr v⟩

/-- Settles O39: canonical lists are determined by what they read. -/
theorem equalContentsAreEqualMemories : Obligations.EqualContentsAreEqualMemories := by
  unfold Obligations.EqualContentsAreEqualMemories
  exact fun _ _ hm hm' h => Memory.eq_of_lookup_eq hm hm' (Memory.lookup_eq_of_read_eq hm hm' h)

end Sys2Proof.Machine

/-!
PROOFS. What every instruction and every step keeps: each rule is a property of states that the shared operations carry,
and `Carries` is the induction over the executor (10_state.md, 60_exceptions.md section 1).
-/

namespace Sys2Proof.Machine

open Sys2Proof

/-! ## The invariant -/

/-- What the invariant comes to while an instruction is at work: canonical memory, a running core, nothing
unfinished. -/
def AtWork (s : State) : Prop := Memory.wf s.mem = true ∧ s.run = .running ∧ s.pending = none

theorem AtWork.inv {s : State} (h : AtWork s) : s.Inv := by
  obtain ⟨hmem, hrun, hpend⟩ := h
  refine ⟨hmem, fun reason status ht => ?_, fun _ => hrun, fun k hk => ?_⟩
  · rw [hrun] at ht; cases ht
  · rw [hpend] at hk; cases hk

theorem AtWork.inv_terminate {s : State} (h : AtWork s) (reason : TermReason) : (terminate reason s).Inv := by
  obtain ⟨hmem, -, hpend⟩ := h
  refine ⟨hmem, fun _ _ ht => ?_, fun hne => absurd hpend hne, fun k hk => ?_⟩
  · cases ht; rfl
  · rw [terminate_pending, hpend] at hk; cases hk

theorem AtWork.inv_setPending {s : State} (h : AtWork s) {k : Pending} (hk : waitsForCharacter k) :
    (setPending (some k) s).Inv := by
  obtain ⟨hmem, hrun, -⟩ := h
  refine ⟨hmem, fun reason status ht => ?_, fun _ => hrun, fun k' hk' => ?_⟩
  · rw [setPending_run, hrun] at ht; cases ht
  · cases hk'; exact hk

theorem carries_inv : Carries AtWork State.Inv where
  reads := {
    consume := fun _ _ _ _ h => h
    sentinel := fun s rest h _ => AtWork.inv_terminate (s := consumeAnswer rest s) h _
    unavailable := fun s rest h _ =>
      AtWork.inv_terminate (s := report .terminalUnavailable (consumeAnswer rest s)) h _
    wait := fun _ _ hk h => h.inv_setPending hk }
  done _ h := h.inv
  reg _ _ _ h := h
  pc _ _ h := h
  flags _ _ h := h

theorem atWork_memWrite : CarriesStore AtWork := fun addr v _ ⟨hmem, hrun, hpend⟩ =>
  ⟨Memory.write_wf hmem addr v, hrun, hpend⟩

theorem endsLead_inv (i : Instr) : EndsLead i AtWork State.Inv where
  halt _ _ h := h.inv_terminate _
  invalid _ s h := AtWork.inv_terminate (s := report (.invalidOpcode (opcodeCode .invalid)) s) h _
  rti _ s h := AtWork.inv_terminate (s := report .rtiUnimplemented s) h _

/-- Settles O47: a step starts from a state at work once the mark is off, and every way it goes leads to the
invariant. -/
theorem stepKeepsTheInvariant : Obligations.StepKeepsTheInvariant := by
  unfold Obligations.StepKeepsTheInvariant
  rintro s t ⟨hmem, -, -, -⟩ hstep
  exact carries_inv.step (fun _ _ h => h) atWork_memWrite endsLead_inv (fun hrun => ⟨hmem, hrun, rfl⟩) hstep

/-- Settles O48: a start state runs with nothing unfinished, and loading an image keeps the canonical form. -/
theorem startStatesMeetTheInvariant : Obligations.StartStatesMeetTheInvariant := by
  unfold Obligations.StartStatesMeetTheInvariant
  have hreset : ∀ p, (State.resetWith p).Inv := fun _ => AtWork.inv ⟨rfl, rfl, rfl⟩
  refine ⟨hreset _, hreset, fun p input img => ⟨AtWork.inv ⟨?_, rfl, rfl⟩, rfl, rfl⟩⟩
  exact Memory.load_wf rfl img.origin img.words

/-! ## Rules that hold from a state to the next

Such a rule is a property that every shared operation keeps; most operations keep it because they do not touch what it
speaks of, and that is each field's default. -/

/-- The shared operations but emitting and storing keep `P`. -/
structure KeptByOps (P : State → Prop) : Prop where
  consume : ∀ s r rest, s.input = r :: rest → P s → P (consumeAnswer rest s) := by exact fun _ _ _ _ h => h
  terminate : ∀ reason s, P s → P (terminate reason s) := by exact fun _ _ h => h
  report : ∀ d s, P s → P (report d s) := by exact fun _ _ h => h
  mark : ∀ k s, P s → P (setPending k s) := by exact fun _ _ h => h
  reg : ∀ r v s, P s → P (setReg r v s) := by exact fun _ _ _ h => h
  pc : ∀ w s, P s → P (setPc w s) := by exact fun _ _ h => h
  flags : ∀ v s, P s → P (setcc v s) := by exact fun _ _ h => h

namespace KeptByOps

variable {P : State → Prop}

theorem readsLead (h : KeptByOps P) : ReadsLead P P where
  consume := h.consume
  sentinel s rest hs hin := h.terminate _ _ (h.consume s _ rest hin hs)
  unavailable s rest hs hin := h.terminate _ _ (h.report _ _ (h.consume s _ rest hin hs))
  wait s k _ hs := h.mark (some k) s hs

theorem carries (h : KeptByOps P) : Carries P P where
  reads := h.readsLead
  done _ hs := hs
  reg := h.reg
  pc := h.pc
  flags := h.flags

theorem endsLead (h : KeptByOps P) (i : Instr) : EndsLead i P P where
  halt _ := h.terminate _
  invalid _ s hs := h.terminate _ _ (h.report _ s hs)
  rti _ s hs := h.terminate _ _ (h.report _ s hs)

/-- Every instruction keeps `P`, if those that emit and those that store do. -/
theorem exec (h : KeptByOps P) {i : Instr} (ht : emits i = true → CarriesText P) (hw : stores i = true → CarriesStore P)
    {s t : State} (hs : P s) (he : exec i s = .next t) : P t :=
  h.carries.exec ht hw (h.endsLead i) hs he

/-- And so does every step. -/
theorem step (h : KeptByOps P) (ht : CarriesText P) (hw : CarriesStore P) {s t : State} (hs : P s)
    (he : step s = .next t) : P t :=
  h.carries.step ht hw h.endsLead (fun _ => h.mark none s hs) he

end KeptByOps

/-! ## The flags -/

theorem keptByOps_oneFlag : KeptByOps OneFlag where
  flags v s _ := setcc_oneFlag v s

/-- Settles O49: `setcc` leaves exactly one flag set, and nothing else writes `psr`. -/
theorem exactlyOneFlagIsKept : Obligations.ExactlyOneFlagIsKept := by
  unfold Obligations.ExactlyOneFlagIsKept
  exact fun _ _ hs => keptByOps_oneFlag.step (fun _ _ h => h) (fun _ _ _ h => h) hs

theorem keptByOps_keepsHighPsr (s : State) : KeptByOps (KeepsHighPsr s) where
  flags v u h k hk := (setcc_keepsHighPsr v u k hk).trans (h k hk)

/-- Settles O50: `setcc` keeps the high bits, and nothing else writes `psr`. -/
theorem highStatusBitsNeverChange : Obligations.HighStatusBitsNeverChange := by
  unfold Obligations.HighStatusBitsNeverChange
  exact fun s _ => (keptByOps_keepsHighPsr s).step (fun _ _ h => h) (fun _ _ _ h => h) fun _ _ => rfl

/-! ## Memory and output -/

theorem keptByOps_keepsMemory (s : State) : KeptByOps (KeepsMemory s) where

/-- Settles O51: of the shared operations only the store touches a cell. -/
theorem onlyStoresChangeMemory : Obligations.OnlyStoresChangeMemory := by
  unfold Obligations.OnlyStoresChangeMemory
  intro i s t hi
  have hstores : stores i = true → CarriesStore (KeepsMemory s) := fun h => absurd (hi.symm.trans h) Bool.false_ne_true
  exact (keptByOps_keepsMemory s).exec (fun _ _ _ h => h) hstores fun _ => rfl

theorem keptByOps_output (text : List Byte) : KeptByOps (fun u => u.output = text) where

/-- Settles O52: of the shared operations only emitting touches the output. -/
theorem onlyTrapServicesEmit : Obligations.OnlyTrapServicesEmit := by
  unfold Obligations.OnlyTrapServicesEmit
  intro i s t hi
  have hemits : emits i = true → CarriesText fun u => u.output = s.output := fun h =>
    absurd (hi.symm.trans h) Bool.false_ne_true
  exact (keptByOps_output s.output).exec hemits (fun _ _ _ _ h => h) rfl

/-- The output and the diagnostics of `u` begin with those of `s`. -/
def Appends (s u : State) : Prop := (∃ text, u.output = s.output ++ text) ∧ ∃ ds, u.diag = s.diag ++ ds

theorem appends_refl (s : State) : Appends s s :=
  ⟨⟨[], (List.append_nil _).symm⟩, [], (List.append_nil _).symm⟩

theorem appends_emitAll (s : State) : CarriesText (Appends s) := by
  rintro text u ⟨⟨text', ho⟩, hd⟩
  exact ⟨⟨text' ++ text, by rw [emitAll_output, ho, List.append_assoc]⟩, hd⟩

theorem appends_report (s : State) (d : Diagnostic) (u : State) (h : Appends s u) : Appends s (report d u) := by
  obtain ⟨ho, ds, hd⟩ := h
  exact ⟨ho, ds ++ [d], by rw [report_diag, hd, List.append_assoc]⟩

theorem keptByOps_appends (s : State) : KeptByOps (Appends s) where
  report := appends_report s

/-- Settles O53: emitting and reporting append, and nothing else writes the two channels. -/
theorem outputOnlyGrows : Obligations.OutputOnlyGrows := by
  unfold Obligations.OutputOnlyGrows
  exact fun s _ => (keptByOps_appends s).step (appends_emitAll s) (fun _ _ _ h => h) (appends_refl s)

/-! ## Input -/

/-- `u` has consumed some of the answers of `s`, in order, and counted them. -/
def Consumed (s u : State) : Prop := ∃ used, s.input = used ++ u.input ∧ u.inputPos = s.inputPos + used.length

theorem consumed_refl (s : State) : Consumed s s := ⟨[], rfl, rfl⟩

theorem consumed_consumeAnswer (s u : State) (r : Answer) (rest : List Answer) (hin : u.input = r :: rest)
    (h : Consumed s u) : Consumed s (consumeAnswer rest u) := by
  obtain ⟨used, hused, hpos⟩ := h
  refine ⟨used ++ [r], ?_, ?_⟩
  · rw [hused, hin, consumeAnswer_input, List.append_assoc, List.singleton_append]
  · rw [consumeAnswer_inputPos, hpos, List.length_append, List.length_singleton, Nat.add_assoc]

theorem keptByOps_consumed (s : State) : KeptByOps (Consumed s) where
  consume := consumed_consumeAnswer s

/-- Settles O54: an acquisition takes the first answer and counts one, and nothing else consumes. -/
theorem inputIsConsumedInOrder : Obligations.InputIsConsumedInOrder := by
  unfold Obligations.InputIsConsumedInOrder
  exact fun s _ => (keptByOps_consumed s).step (fun _ _ h => h) (fun _ _ _ h => h) (consumed_refl s)

end Sys2Proof.Machine

/-!
PROOFS. BR and JSRR (41_control.md R80, R81, R84), beside JMP and JSR above.
-/

namespace Sys2Proof.Machine

open Sys2Proof

theorem exec_br (n z p : Bool) (off9 : BitVec 9) (s : State) :
    exec (.br n z p off9) s = .next (if branchTaken n z p s then setPc (s.pc + sext off9) s else s) := rfl

theorem exec_jsrr (b : Reg) (s : State) : exec (.jsrr b) s = .next (setPc (getReg (linkR7 s) b) (linkR7 s)) := rfl

theorem exec_br_taken {n z p : Bool} {s : State} (h : branchTaken n z p s = true) (off9 : BitVec 9) :
    exec (.br n z p off9) s = .next (setPc (s.pc + sext off9) s) := by
  rw [exec_br, if_pos h]

theorem exec_br_notTaken {n z p : Bool} {s : State} (h : branchTaken n z p s = false) (off9 : BitVec 9) :
    exec (.br n z p off9) s = .next s := by
  rw [exec_br, if_neg (ne_true_of_eq_false h)]

/-! ## The test of BR (41_control.md R80) -/

/-- N, Z, P are bits 2, 1, 0 of `psr`, in the order of the enable bits (10_state.md R16). -/
theorem psr_flags (s : State) :
    s.psr.extractLsb' 0 3 = BitVec.ofBool (flagN s) ++ BitVec.ofBool (flagZ s) ++ BitVec.ofBool (flagP s) := by
  apply BitVec.eq_of_getLsbD_eq
  intro k hk
  interval_cases k <;> simp only [BitVec.getLsbD_append] <;> simp [flagN, flagZ, flagP]

/-- The enable bits and the flags, as words of three bits, have a bit in common exactly when the branch is taken. -/
theorem enabled_and_flags_eq_zero_iff (n z p : Bool) (s : State) :
    (BitVec.ofBool n ++ BitVec.ofBool z ++ BitVec.ofBool p) &&& s.psr.extractLsb' 0 3 = 0b000#3
      ↔ branchTaken n z p s = false := by
  rw [psr_flags, branchTaken]
  generalize flagN s = fn
  generalize flagZ s = fz
  generalize flagP s = fp
  revert n z p fn fz fp
  decide

/-- Settles O13: the two answers of BR's test, each an update of the pc at most. -/
theorem branchOnAnEnabledFlag : Obligations.BranchOnAnEnabledFlag := by
  unfold Obligations.BranchOnAnEnabledFlag
  intro n z p off9 s
  refine ⟨decode_br n z p off9, ?_⟩
  cases htaken : branchTaken n z p s with
  | false =>
    refine ⟨s, exec_br_notTaken htaken off9, ?_, keepsAllButPcAndRegs_refl [] s⟩
    rw [if_pos ((enabled_and_flags_eq_zero_iff n z p s).2 htaken)]
  | true =>
    refine ⟨_, exec_br_taken htaken off9, ?_, keepsAllButPcAndRegs_setPc (keepsAllButPcAndRegs_refl [] s) _⟩
    rw [setPc_pc, wordsFrom_toInt, if_neg]
    rw [enabled_and_flags_eq_zero_iff, htaken]
    exact nofun

/-- Settles O14: with no enable bit the test fails; the zero word is such a BR; with all three it is the or of the
flags. -/
theorem branchWithNoneOrAllEnabled : Obligations.BranchWithNoneOrAllEnabled := by
  unfold Obligations.BranchWithNoneOrAllEnabled
  refine ⟨fun off9 s => exec_br_notTaken rfl off9, fun s hrun hpend hpc hcell => ?zeroCell, fun off9 s => ?all⟩
  case zeroCell =>
    have hdecode : decode 0x0000#16 = .br false false false 0#9 := by decide
    rw [step_storage hrun hpend hpc, hcell, hdecode, exec_br_notTaken rfl]
    rfl
  case all =>
    have htest : branchTaken true true true s = (flagN s || flagZ s || flagP s) := by
      simp only [branchTaken, Bool.true_and]
    rw [← htest, wordsFrom_toInt]
    cases htaken : branchTaken true true true s with
    | false => exact exec_br_notTaken htaken off9
    | true => exact exec_br_taken htaken off9

/-- Settles O17: the base register is read after the link, which only differs from before at R7. -/
theorem jumpToSubroutineRegisterForm : Obligations.JumpToSubroutineRegisterForm := by
  unfold Obligations.JumpToSubroutineRegisterForm
  intro b hi lo s
  refine ⟨decode_jsrr b hi lo, _, exec_jsrr b s, getReg_seven_linkR7 s, ?_,
    keepsAllButPcAndRegs_setPc (linkR7_keepsAllButPcAndRegs s) _⟩
  rw [setPc_pc, linkR7_eq, getReg_setReg]

end Sys2Proof.Machine

/-!
PROOFS. HALT, RTI and INVALID (43_system.md R106, R110, R111): each ends the run, and ending it changes the run
state only.
-/

namespace Sys2Proof.Machine

open Sys2Proof

theorem exec_halt (s : State) : exec .halt s = .next (terminate .halt (emitAll Config.haltNotice (linkR7 s))) := rfl

theorem exec_rti (s : State) : exec .rti s = .next (terminate .rtiUnimplemented (report .rtiUnimplemented s)) := rfl

theorem exec_invalid (s : State) :
    exec .invalid s = .next (terminate .invalidOpcode (report (.invalidOpcode (opcodeCode .invalid)) s)) := rfl

/-- A fatal condition reports and ends the run; it changes no register, flag or cell. -/
theorem terminate_report_endedWith (reason : TermReason) (d : Diagnostic) (s : State) :
    EndedWith [] reason (exitStatus reason) s (terminate reason (report d s)) :=
  ⟨rfl, fun _ _ => rfl, rfl, rfl, fun _ => rfl, rfl⟩

/-- Settles O33: the link, the notice and the end, each with its own field. -/
theorem haltService : Obligations.HaltService := by
  unfold Obligations.HaltService
  intro ign s
  obtain ⟨hregs, hpsr, hmem, hin, -, -⟩ := linkR7_keepsAllButPcAndRegs s
  have hended : EndedWith [7#3] .halt 0 s (terminate .halt (emitAll Config.haltNotice (linkR7 s))) :=
    ⟨rfl, hregs, hpsr, rfl, hmem, rfl⟩
  exact ⟨decode_trap ign 0x25#8, _, exec_halt s, hended, getReg_seven_linkR7 s, rfl, rfl, hin⟩

/-- Settles O34: a report and the end with the abort's status, which is not zero. -/
theorem rtiEndsTheRun : Obligations.RtiEndsTheRun := by
  unfold Obligations.RtiEndsTheRun
  exact fun ign s => ⟨decode_rti ign, _, exec_rti s, terminate_report_endedWith .rtiUnimplemented _ s,
    abortStatus_ne_zero, rfl, rfl, rfl, rfl⟩

/-- Settles O35: a report of the opcode and the end with status 1. -/
theorem invalidOpcodeEndsTheRun : Obligations.InvalidOpcodeEndsTheRun := by
  unfold Obligations.InvalidOpcodeEndsTheRun
  exact fun ign s => ⟨decode_invalid ign, _, exec_invalid s, terminate_report_endedWith .invalidOpcode _ s,
    rfl, rfl, rfl, rfl⟩

end Sys2Proof.Machine

/-!
PROOFS. Acquisition by its answer and the instruction cycle (20_memory.md R36, 10_state.md R22, R23): the step at a
storage cell, the step at the keyboard, the step of a terminated core, and runs of any length.
-/

namespace Sys2Proof.Machine

open Sys2Proof

/-- Settles O37: the law of each answer. -/
theorem acquisitionByAnswer : Obligations.AcquisitionByAnswer := by
  unfold Obligations.AcquisitionByAnswer
  exact fun s => ⟨fun _ _ _ hin hc => acquire_received hin hc, fun _ hin => acquire_sentinel hin,
    fun _ hin => acquire_unavailable hin, (acquire_waiting s).2, abortStatus_ne_zero⟩

/-! ## The step -/

/-- Settles O40: the step at a storage cell; the successor of a word is that of its unsigned reading modulo 65536. -/
theorem stepRunsTheDecodedInstruction : Obligations.StepRunsTheDecodedInstruction := by
  unfold Obligations.StepRunsTheDecodedInstruction
  rintro _ s hrun hpend hpc rfl
  have hsucc : BitVec.ofNat 16 (s.pc.toNat + 1) = s.pc + 1#16 := by
    rw [BitVec.ofNat_add, BitVec.ofNat_toNat, BitVec.setWidth_eq]
  rw [hsucc, step_storage hrun hpend hpc]
  rfl

/-- At the keyboard a fetch is an acquisition. -/
theorem fetch_keyboard {s : State} (hpc : s.pc = kbdrAddr) : fetch s = acquire s := by
  rw [fetch, hpc, memRead_keyboard]

section

variable {s s1 : State} (hrun : s.run = .running) (hpend : s.pending = none)
include hrun hpend

theorem step_of_fetch_value {ir : Word} (h : fetch s = .value ir s1) : step s = exec (decode ir) (advancePc s1) := by
  simp only [step, hrun, hpend, h]

theorem step_of_fetch_ended (h : fetch s = .ended s1) : step s = .next s1 := by
  simp only [step, hrun, hpend, h]

theorem step_of_fetch_waiting (h : fetch s = .waiting) : step s = .next s := by
  simp only [step, hrun, hpend, h]

end

/-- Settles O41: the acquisition's answer decides the step, and 0xFE03 is the word after 0xFE02. -/
theorem fetchAtTheKeyboard : Obligations.FetchAtTheKeyboard := by
  unfold Obligations.FetchAtTheKeyboard
  intro s hrun hpend hpc
  have hfetch := fetch_keyboard hpc
  refine ⟨fun r rest c hin hc => ?received, fun rest hin => ?sentinel, fun rest hin => ?unavailable,
    fun hin => ?waiting⟩
  case received =>
    have hnext : advancePc (consumeAnswer rest s) = { consumeAnswer rest s with pc := 0xFE03#16 } := by
      rw [advancePc_eq, consumeAnswer_pc, hpc]
      rfl
    rw [step_of_fetch_value hrun hpend (hfetch.trans (acquire_received hin hc)), hnext]
    rfl
  case sentinel =>
    exact ⟨_, step_of_fetch_ended hrun hpend (hfetch.trans (acquire_sentinel hin)),
      ⟨rfl, fun _ _ => rfl, rfl, rfl, fun _ => rfl, rfl⟩, ⟨rfl, rfl⟩, rfl, rfl⟩
  case unavailable =>
    exact ⟨_, step_of_fetch_ended hrun hpend (hfetch.trans (acquire_unavailable hin)),
      terminate_report_endedWith .terminalUnavailable _ (consumeAnswer rest s), ⟨rfl, rfl⟩, rfl, rfl⟩
  case waiting => exact step_of_fetch_waiting hrun hpend (hfetch.trans ((acquire_waiting s).2 hin))

/-- A running core always answers a next state. -/
theorem step_next {s : State} (hrun : s.run = .running) : ∃ t, step s = .next t := by
  cases hpend : s.pending with
  | some k => exact ⟨_, step_pending hrun hpend⟩
  | none =>
    cases hfetch : fetch s with
    | value ir s1 =>
      rw [step_of_fetch_value hrun hpend hfetch]
      exact exec_next _ _
    | ended s1 => exact ⟨_, step_of_fetch_ended hrun hpend hfetch⟩
    | waiting => exact ⟨_, step_of_fetch_waiting hrun hpend hfetch⟩

/-- Settles O42: a running core steps, a terminated one faults, and reset runs. -/
theorem terminationIsFinal : Obligations.TerminationIsFinal := by
  unfold Obligations.TerminationIsFinal
  exact ⟨fun _ hrun => step_next hrun, fun _ _ _ h => step_terminated h, fun _ => rfl⟩

/-- Settles O57, by induction on the number of steps: a step is a next state while the core runs, and the fault of a
terminated core otherwise. -/
theorem noInstructionStopsTheMachine : Obligations.NoInstructionStopsTheMachine := by
  unfold Obligations.NoInstructionStopsTheMachine
  intro n
  induction n with
  | zero => exact fun _ => trivial
  | succ n ih =>
    intro s
    unfold SafeRun
    cases hrun : s.run with
    | running =>
      obtain ⟨t, ht⟩ := step_next hrun
      rw [ht]
      exact ih t
    | terminated reason status =>
      rw [step_terminated hrun]
      exact RunState.noConfusion

/-! ## A store and the next fetch (20_memory.md section 5) -/

theorem exec_sti (a : Reg) (off9 : BitVec 9) (s : State) :
    exec (.sti a off9) s = .next (readThen (pcRelative off9 s) (.storePointer a) (storeThroughPointer a) s) := rfl

theorem exec_sti_storage (a : Reg) {off9 : BitVec 9} {s : State} (h : pcRelative off9 s ≠ kbdrAddr) :
    exec (.sti a off9) s = .next (memWrite (readCell s (pcRelative off9 s)) (getReg s a) s) := by
  rw [exec_sti, readThen_storage h]
  rfl

/-- A core whose memory is that of `s` after a store, at the address of the store, executes the word stored. -/
theorem step_after_memWrite {s u : State} {ea v : Word} (hwf : Memory.wf s.mem = true)
    (hmem : u.mem = (memWrite ea v s).mem) (hpc : u.pc = ea) (hea : ea ≠ kbdrAddr) (hrun : u.run = .running)
    (hpend : u.pending = none) : step u = exec (decode v) { u with pc := ea + 1#16 } := by
  have hcell : readCell u ea = v := by
    rw [readCell, hmem]
    exact Memory.read_write_same hwf ea v
  subst hpc
  rw [step_storage hrun hpend hea, hcell]
  rfl

/-- Settles O46: ST, STR and STI each are one `memWrite` of register a. -/
theorem storeIsSeenByTheNextFetch : Obligations.StoreIsSeenByTheNextFetch := by
  unfold Obligations.StoreIsSeenByTheNextFetch
  rintro i a ea s t u hwf hstore hexec hmem hpc hea hrun hpend
  have ht : exec i s = .next (memWrite ea (getReg s a) s) := by
    obtain ⟨off9, rfl, rfl⟩ | ⟨b, off6, rfl, rfl⟩ | ⟨off9, rfl, hptr, rfl⟩ := hstore
    · rw [exec_st, wordsFrom_pc]
    · rw [exec_str, wordsFrom_getReg]
    · rw [wordsFrom_pc] at hptr ⊢
      exact exec_sti_storage a hptr
  rw [ht] at hexec
  cases hexec
  exact step_after_memWrite hwf hmem hpc hea hrun hpend

end Sys2Proof.Machine

/-!
PROOFS. LD, LDI, LDR, STI, GETC and IN (42_load_store.md R90 to R92, R95; 43_system.md R101, R104): each goes on after a
read, and `loadsFrom_readThen` and `readsCharacter_acquireThen` say what that comes to.
-/

namespace Sys2Proof.Machine

open Sys2Proof

/-! ## The meanings the executor gives -/

theorem exec_ld (a : Reg) (off9 : BitVec 9) (s : State) :
    exec (.ld a off9) s = .next (readThen (pcRelative off9 s) (.load a) (writeResult a) s) := rfl

theorem exec_ldi (a : Reg) (off9 : BitVec 9) (s : State) :
    exec (.ldi a off9) s = .next (readThen (pcRelative off9 s) (.loadPointer a) (loadThroughPointer a) s) := rfl

theorem exec_ldr (a b : Reg) (off6 : BitVec 6) (s : State) :
    exec (.ldr a b off6) s = .next (readThen (baseOffset b off6 s) (.load a) (writeResult a) s) := rfl

theorem exec_getc (s : State) : exec .getc s = .next (acquireThen .getc finishGetc (linkR7 s)) := rfl

theorem exec_inp (s : State) :
    exec .inp s = .next (acquireThen .inp finishIn (emitAll Config.inPrompt (linkR7 s))) := rfl

/-! ## Going on with a received character -/

/-- As `readsCharacter_acquireThen`, for a continuation that is right for the characters that can be received. -/
theorem readsCharacter_of_received (k : Pending) (f : Word → State → State) (done : Word → List Answer → State → Prop)
    (u : State) (h : ∀ r rest c, Received r c → done c rest (f c (consumeAnswer rest u))) :
    ReadsCharacter k done u (.next (acquireThen k f u)) := by
  obtain ⟨hreceived, hsentinel, hunavailable, hwaiting⟩ :=
    readsCharacter_acquireThen k f (fun c rest t => t = f c (consumeAnswer rest u)) u fun _ _ => rfl
  refine ⟨fun r rest c hin hc => ?_, hsentinel, hunavailable, hwaiting⟩
  obtain ⟨t, ht, rfl⟩ := hreceived r rest c hin hc
  exact ⟨_, ht, h r rest c hc⟩

/-- A character as LDI's pointer: the second read is of storage. -/
theorem loadThroughPointer_received (a : Reg) {r : Answer} {c : Word} (hc : Received r c) (rest : List Answer)
    (s : State) : loadThroughPointer a c (consumeAnswer rest s) = writeResult a (readCell s c) (consumeAnswer rest s) :=
  readThen_storage hc.ne_kbdrAddr _ _ _

/-- IN with its character: the echo, then as GETC; registers, flags and cells are those of before the echo. -/
theorem finishIn_consumeAnswer (c : Word) (rest : List Answer) (u : State) :
    ResultIn 0#3 c u (finishIn c (consumeAnswer rest u)) ∧ ConsumesOne rest u (finishIn c (consumeAnswer rest u))
      ∧ (finishIn c (consumeAnswer rest u)).output = u.output ++ [lowBits c]
      ∧ (finishIn c (consumeAnswer rest u)).diag = u.diag ∧ KeepsControl u (finishIn c (consumeAnswer rest u)) := by
  obtain ⟨hresult, hin, ⟨hout, hdiag⟩, hctl⟩ :=
    writeResult_onlyResultIn 0#3 c (emit (lowByte c) (consumeAnswer rest u))
  exact ⟨hresult, hin, lowByte_eq c ▸ hout, hdiag, hctl⟩

/-! ## The obligations -/

/-- Settles O18: LD is one load from the pc-relative address. -/
theorem loadForm : Obligations.LoadForm := by
  unfold Obligations.LoadForm
  intro a off9 s
  rw [wordsFrom_pc, exec_ld]
  exact ⟨decode_ld a off9, loadsFrom_readThen a _ s⟩

/-- Settles O19: a pointer from storage leads to a load, a pointer from the keyboard to a load from storage. -/
theorem loadIndirectForm : Obligations.LoadIndirectForm := by
  unfold Obligations.LoadIndirectForm
  intro a off9 s
  rw [wordsFrom_pc, exec_ldi]
  refine ⟨decode_ldi a off9, fun hptr => ?_, fun hptr => ?_⟩
  · rw [readThen_storage hptr]
    exact loadsFrom_readThen a _ s
  · rw [hptr]
    refine readsCharacter_of_received _ _ _ s fun r rest c hc => ?_
    rw [loadThroughPointer_received a hc]
    exact writeResult_consumeAnswer a _ rest s

/-- Settles O20: LDR is one load from base plus offset. -/
theorem loadBaseOffsetForm : Obligations.LoadBaseOffsetForm := by
  unfold Obligations.LoadBaseOffsetForm
  intro a b off6 s
  rw [wordsFrom_getReg, exec_ldr]
  exact ⟨decode_ldr a b off6, loadsFrom_readThen a _ s⟩

/-- Settles O23: through either pointer STI is one store of register a. -/
theorem storeIndirectForm : Obligations.StoreIndirectForm := by
  unfold Obligations.StoreIndirectForm
  intro a off9 s hwf
  rw [wordsFrom_pc]
  refine ⟨decode_sti a off9, fun hptr => ?_, fun hptr => ?_⟩
  · exact ⟨_, exec_sti_storage a hptr, stored_memWrite hwf _ _, memWrite_keepsInput _ _ s⟩
  · rw [exec_sti, hptr]
    exact readsCharacter_acquireThen _ _ _ s fun c rest =>
      ⟨stored_memWrite (s := consumeAnswer rest s) hwf c (getReg s a), rfl, rfl⟩

/-- Settles O26: after the link, GETC writes its character as a result in R0. -/
theorem getcService : Obligations.GetcService := by
  unfold Obligations.GetcService
  rintro ign s u rfl
  rw [exec_getc]
  exact ⟨decode_trap ign 0x20#8,
    readsCharacter_acquireThen _ _ _ _ fun c rest => writeResult_consumeAnswer 0#3 c rest _⟩

/-- Settles O30: after the link and the prompt, IN echoes its character and writes it as a result in R0. -/
theorem inService : Obligations.InService := by
  unfold Obligations.InService
  rintro ign s u rfl
  rw [exec_inp]
  exact ⟨decode_trap ign 0x23#8, readsCharacter_acquireThen _ _ _ _ fun c rest => finishIn_consumeAnswer c rest _⟩

end Sys2Proof.Machine

/-!
PROOFS. PUTS and PUTSP (43_system.md R103, R105): one argument for both, over the bytes the service emits for a word.
-/

namespace Sys2Proof.Machine

open Sys2Proof

/-- The string service that emits `bytes` for each word, from an address on. -/
def textFrom (k : Word → Pending) (bytes : Word → List Byte) (addr : Word) (s : State) : State :=
  stringFrom k (fun w u => emitAll (bytes w) u) addr s

theorem putsFrom_eq (addr : Word) (s : State) : putsFrom addr s = textFrom .puts (fun w => [lowBits w]) addr s := by
  rw [putsFrom, putWord_eq, textFrom]

theorem putspFrom_eq (addr : Word) (s : State) : putspFrom addr s = textFrom .putsp packedBytes addr s := by
  rw [putspFrom, putPackedWord_eq, textFrom]

theorem exec_puts (s : State) :
    exec .puts s = .next (textFrom .puts (fun w => [lowBits w]) (getReg s 0#3) (linkR7 s)) := by
  rw [← putsFrom_eq, ← getReg_zero_linkR7]
  rfl

theorem exec_putsp (s : State) : exec .putsp s = .next (textFrom .putsp packedBytes (getReg s 0#3) (linkR7 s)) := by
  rw [← putspFrom_eq, ← getReg_zero_linkR7]
  rfl

section

variable (k : Word → Pending) (bytes : Word → List Byte)

theorem textFrom_storage {addr : Word} (h : addr ≠ kbdrAddr) (s : State) :
    textFrom k bytes addr s = if readCell s addr = 0x0000#16 then s
      else textFrom k bytes (addr + 1#16) (emitAll (bytes (readCell s addr)) s) :=
  stringFrom_storage k (put := fun w u => emitAll (bytes w) u) (fun _ _ => rfl) h s

/-- At the keyboard the word is a character. -/
theorem textFrom_keyboard (s : State) :
    textFrom k bytes kbdrAddr s = acquireThen (k kbdrAddr)
      (fun w u => if w = 0x0000#16 then u else textFrom k bytes 0xFE03#16 (emitAll (bytes w) u)) s :=
  stringFrom_keyboard k (put := fun w u => emitAll (bytes w) u) (fun _ _ => rfl) s

/-- A stored string: its bytes after the link, and nothing else. -/
theorem textFrom_string_onlyEmitted {ws : List Word} {s : State} (h : HoldsString s (getReg s 0#3) ws) :
    OnlyEmitted (ws.flatMap bytes) s (textFrom k bytes (getReg s 0#3) (linkR7 s)) := by
  rw [textFrom, stringFrom_string k bytes ws _ _ (HoldsString.of_mem (s := s) (linkR7 s) rfl h)]
  exact emitAll_linkR7_onlyEmitted _ s

/-- A string that runs into the keyboard: the words before it, then a character, which ends the string or is one more
word of it. -/
theorem textFrom_reaches_keyboard {ws ws' : List Word} {addr : Word} {s u : State} (hws : HoldsWords s addr ws)
    (hend : addr + BitVec.ofNat 16 ws.length = kbdrAddr) (hu : u = emitAll (ws.flatMap bytes) (linkR7 s)) :
    ReadsCharacter (k kbdrAddr)
      (fun c rest t =>
        (c = 0x0000#16 → t = { u with input := rest, inputPos := u.inputPos + 1 })
          ∧ (c ≠ 0x0000#16 → HoldsString s 0xFE03#16 ws' →
              t = { u with
                output := u.output ++ bytes c ++ ws'.flatMap bytes, input := rest, inputPos := u.inputPos + 1 }))
      u (.next (textFrom k bytes addr (linkR7 s))) := by
  have hwords : textFrom k bytes addr (linkR7 s) = textFrom k bytes kbdrAddr u := by
    rw [textFrom, stringFrom_words k bytes ws addr _ (HoldsWords.of_mem (s := s) (linkR7 s) rfl hws), hend,
      ← hu, textFrom]
  rw [hwords, textFrom_keyboard]
  refine readsCharacter_acquireThen _ _ _ u fun c rest => ⟨fun h0 => ?_, fun h0 hstring => ?_⟩
  · rw [if_pos h0]
    rfl
  · have hmem : (emitAll (bytes c) (consumeAnswer rest u)).mem = s.mem := by rw [hu]; rfl
    rw [if_neg h0, textFrom, stringFrom_string k bytes ws' _ _ (hstring.of_mem _ hmem)]
    rfl

/-- A step of a core with the service unfinished at an address goes on from there. -/
theorem step_textFrom (hk : ∀ addr s, resumePending (k addr) s = textFrom k bytes addr s) {u : State}
    (hrun : u.run = .running) (hpend : u.pending = none) (addr : Word) :
    step { u with pending := some (k addr) } = .next (textFrom k bytes addr u) := by
  have hunmark : setPending none { u with pending := some (k addr) } = u := by rw [setPending, ← hpend]
  rw [step_pending (s := { u with pending := some (k addr) }) hrun rfl, hunmark, hk]

/-- Word by word from any address. -/
theorem stringGoesOn (hk : ∀ addr s, resumePending (k addr) s = textFrom k bytes addr s) {u : State}
    (hrun : u.run = .running) (hpend : u.pending = none) : StringGoesOn k bytes u := by
  refine ⟨fun addr haddr h0 => ?zero, fun addr haddr h0 => ?word, ?keyboard⟩
  case zero => rw [step_textFrom k bytes hk hrun hpend, textFrom_storage k bytes haddr, if_pos h0]
  case word =>
    rw [step_textFrom k bytes hk hrun hpend, textFrom_storage k bytes haddr, if_neg h0]
    exact (step_textFrom k bytes hk (u := emitAll (bytes (readCell u addr)) u) hrun hpend (addr + 1#16)).symm
  case keyboard =>
    rw [step_textFrom k bytes hk hrun hpend]
    have hkeyboard : textFrom k bytes 0xFE02#16 u = _ := textFrom_keyboard k bytes u
    rw [hkeyboard]
    refine readsCharacter_acquireThen _ _ _ u fun c rest => ⟨fun h0 => ?_, fun h0 => ?_⟩
    · rw [if_pos h0]
      rfl
    · rw [if_neg h0]
      exact step_textFrom k bytes hk (u := emitAll (bytes c) (consumeAnswer rest u)) hrun hpend 0xFE03#16

end

/-! ## The obligations -/

/-- Settles O28: PUTS over a stored string. -/
theorem putsService : Obligations.PutsService := by
  unfold Obligations.PutsService
  intro ign ws s h
  refine ⟨decode_trap ign 0x22#8, _, exec_puts s, ?_⟩
  rw [← flatMap_lowBits]
  exact textFrom_string_onlyEmitted _ _ h

/-- Settles O31: PUTSP over a stored string. -/
theorem putspService : Obligations.PutspService := by
  unfold Obligations.PutspService
  exact fun ign ws s h => ⟨decode_trap ign 0x24#8, _, exec_putsp s, textFrom_string_onlyEmitted _ _ h⟩

/-- Settles O29: PUTS up to the keyboard and past its first character. -/
theorem putsReachingTheKeyboard : Obligations.PutsReachingTheKeyboard := by
  unfold Obligations.PutsReachingTheKeyboard
  intro ws ws' s u hws hend hu
  rw [exec_puts]
  simp only [← flatMap_lowBits] at hu ⊢
  exact textFrom_reaches_keyboard Pending.puts _ hws hend hu

/-- Settles O32: PUTSP up to the keyboard and past its first character. -/
theorem putspReachingTheKeyboard : Obligations.PutspReachingTheKeyboard := by
  unfold Obligations.PutspReachingTheKeyboard
  intro ws ws' s u hws hend hu
  rw [exec_putsp]
  exact textFrom_reaches_keyboard Pending.putsp _ hws hend hu

/-- Settles O45: both services go on word by word, and begin as if left unfinished at their first word. -/
theorem unfinishedStringGoesOn : Obligations.UnfinishedStringGoesOn := by
  unfold Obligations.UnfinishedStringGoesOn
  intro u hrun hpend
  refine ⟨stringGoesOn Pending.puts _ putsFrom_eq hrun hpend, stringGoesOn Pending.putsp _ putspFrom_eq hrun hpend,
    ?puts, ?putsp⟩
  case puts =>
    rw [exec_puts]
    exact (step_textFrom Pending.puts _ putsFrom_eq (u := linkR7 u) hrun hpend _).symm
  case putsp =>
    rw [exec_putsp]
    exact (step_textFrom Pending.putsp _ putspFrom_eq (u := linkR7 u) hrun hpend _).symm

end Sys2Proof.Machine

/-!
PROOFS. TRAP as a whole (43_system.md R100, R107): every vector links, and no service moves R7 or the pc after it.
-/

namespace Sys2Proof.Machine

open Sys2Proof

/-- R7 and the pc both hold `w`. -/
def Linked (w : Word) (u : State) : Prop := getReg u 7#3 = w ∧ u.pc = w

theorem linked_linkR7 (s : State) : Linked s.pc (linkR7 s) := ⟨getReg_seven_linkR7 s, rfl⟩

theorem readsLead_linked (w : Word) : ReadsLead (Linked w) (Linked w) where
  consume _ _ _ _ h := h
  sentinel _ _ h _ := h
  unavailable _ _ h _ := h
  wait _ _ _ h := h

/-- The services' results go to R0. -/
theorem Linked.writeResult_zero {w : Word} (v : Word) {u : State} (h : Linked w u) :
    Linked w (writeResult 0#3 v u) := by
  obtain ⟨hlink, hpc⟩ := h
  refine ⟨?_, hpc⟩
  rw [writeResult_eq, getReg_setcc, getReg_setReg_ne _ _ _ _ (by decide), hlink]

theorem Linked.textFrom {w : Word} {k : Word → Pending} (hk : waitsForCharacter (k kbdrAddr)) (bytes : Word → List Byte)
    (addr : Word) {u : State} (h : Linked w u) : Linked w (textFrom k bytes addr u) :=
  stringFrom_leads (readsLead_linked w) (fun _ hs => hs) hk (put := fun v s => emitAll (bytes v) s) (fun _ _ hs => hs)
    (fun _ _ => rfl) addr h

theorem exec_trap (v : Byte) (s : State) : exec (.trap v) s = .next (linkR7 s) := rfl

/-- Every TRAP links, whatever its service then does. -/
theorem exec_decodeTrap_linked (v : Byte) (s : State) : ∃ t, exec (decodeTrap v) s = .next t ∧ Linked s.pc t := by
  have hlink := linked_linkR7 s
  have hreads := readsLead_linked s.pc
  rcases decodeTrap_cases v with ⟨-, h⟩ | ⟨-, h⟩ | ⟨-, h⟩ | ⟨-, h⟩ | ⟨-, h⟩ | ⟨-, h⟩ | ⟨-, h⟩ <;> rw [h]
  · exact ⟨_, exec_getc s, acquireThen_leads hreads (by exact trivial) (fun c _ hu => hu.writeResult_zero c) hlink⟩
  · exact ⟨_, exec_out s, hlink⟩
  · exact ⟨_, exec_puts s, hlink.textFrom (k := .puts) rfl _ _⟩
  · exact ⟨_, exec_inp s, acquireThen_leads (s := emitAll Config.inPrompt (linkR7 s)) hreads (by exact trivial)
      (fun c u hu => Linked.writeResult_zero (u := emit (lowByte c) u) c hu) hlink⟩
  · exact ⟨_, exec_putsp s, hlink.textFrom (k := .putsp) rfl _ _⟩
  · exact ⟨_, exec_halt s, hlink⟩
  · exact ⟨_, exec_trap v s, hlink⟩

/-- Settles O25: the vector's choice is `decodeTrap`, every choice links, and a vector of no service does nothing
else. -/
theorem trapWithNoServiceOnlyLinks : Obligations.TrapWithNoServiceOnlyLinks := by
  unfold Obligations.TrapWithNoServiceOnlyLinks
  intro ign v s
  have hdecode : decode (opcodeCode .trap ++ ign ++ v) = decodeTrap v := decode_trap ign v
  rw [hdecode]
  exact ⟨rfl, exec_decodeTrap_linked v s, fun _ =>
    ⟨_, exec_trap v s, getReg_seven_linkR7 s, rfl, linkR7_keepsAllButPcAndRegs s⟩⟩

end Sys2Proof.Machine

/-!
PROOFS. The wait (60_exceptions.md R135; notes/assumptions 5): it keeps all state, and it cannot be told from an answer
that was there at once.
-/

namespace Sys2Proof.Machine

open Sys2Proof

/-! ## Waiting -/

/-- Going on without an answer only puts the mark back. -/
theorem resumePending_waiting {k : Pending} (hk : waitsForCharacter k) {s : State} (hin : s.input = []) :
    resumePending k s = setPending (some k) s := by
  cases k with
  | load | loadPointer | storePointer | getc | inp => exact acquireThen_waiting hin _ _
  | puts addr =>
    cases (hk : addr = kbdrAddr)
    exact (putsFrom_eq _ s).trans ((textFrom_keyboard _ _ s).trans (acquireThen_waiting hin _ _))
  | putsp addr =>
    cases (hk : addr = kbdrAddr)
    exact (putspFrom_eq _ s).trans ((textFrom_keyboard _ _ s).trans (acquireThen_waiting hin _ _))

/-- Settles O43: a step without an answer takes the mark off and puts it back. -/
theorem waitingKeepsAllState : Obligations.WaitingKeepsAllState := by
  unfold Obligations.WaitingKeepsAllState
  intro k s hrun hpend hk hin
  have hmark : setPending (some k) (setPending none s) = s := by rw [setPending, ← hpend]; rfl
  rw [step_pending hrun hpend, resumePending_waiting (s := setPending none s) hk hin, hmark]

/-! ## A wait and then an answer -/

/-- The data read of the loads, taken up as itself. -/
theorem load_waitsAt (r : Answer) (a : Reg) (ea : Word) (s : State) :
    WaitsAt r (readThen ea (.load a) (writeResult a)) s :=
  readThen_waitsAt (fun _ => rfl) (waitsAt_of_pending rfl) fun _ _ _ _ => waitsAt_of_pending rfl

theorem textFrom_waitsAt {r : Answer} {k : Word → Pending} {bytes : Word → List Byte}
    (hk : ∀ addr s, resumePending (k addr) s = textFrom k bytes addr s) (addr : Word) (s : State) :
    WaitsAt r (textFrom k bytes addr) s :=
  stringFrom_waitsAt (put := fun w u => emitAll (bytes w) u) (hk kbdrAddr) (fun _ _ => rfl) (fun _ _ => rfl)
    (fun _ _ => rfl) (fun _ _ => rfl) addr s

/-- An instruction that does `F`, whatever answers there are, and then waits. -/
theorem WaitsAt.step_deliver {r : Answer} {F : State → State} {i : Instr} {s u t : State} (h : WaitsAt r F u)
    (hexec : exec i s = .next (F u)) (hdeliver : exec i (s.deliver r) = .next (F (u.deliver r)))
    (hrun : u.run = .running) (hpend : u.pending = none) (ht : exec i s = .next t) (hwait : t.pending ≠ none) :
    step (t.deliver r) = exec i (s.deliver r) := by
  rw [hexec] at ht
  cases ht
  rw [hdeliver]
  exact h hrun hpend hwait

/-- Settles O44: each instruction that may wait is a read that is taken up as itself, the others never wait. -/
theorem waitingIsTransparent : Obligations.WaitingIsTransparent := by
  unfold Obligations.WaitingIsTransparent
  intro i r s t hrun hpend hexec hwait
  cases i with
  | addReg | addImm | andReg | andImm | not | lea | st | str | jmp | jsr | jsrr | rti | invalid | trap | out | halt =>
    cases hexec
    exact absurd hpend hwait
  | br n z p off9 =>
    rw [exec_br] at hexec
    cases hexec
    split at hwait <;> exact absurd hpend hwait
  | ld a off9 => exact (load_waitsAt r a (pcRelative off9 s) s).step_deliver rfl rfl hrun hpend hexec hwait
  | ldr a b off6 => exact (load_waitsAt r a (baseOffset b off6 s) s).step_deliver rfl rfl hrun hpend hexec hwait
  | ldi a off9 =>
    have hread : WaitsAt r (readThen (pcRelative off9 s) (.loadPointer a) (loadThroughPointer a)) s :=
      readThen_waitsAt (fun _ => rfl) (load_waitsAt r a _ s) fun v _ _ _ => load_waitsAt r a v _
    exact hread.step_deliver rfl rfl hrun hpend hexec hwait
  | sti a off9 =>
    have hread : WaitsAt r (readThen (pcRelative off9 s) (.storePointer a) (storeThroughPointer a)) s :=
      readThen_waitsAt (fun _ => rfl) (waitsAt_of_pending rfl) fun _ _ _ _ => waitsAt_of_pending rfl
    exact hread.step_deliver rfl rfl hrun hpend hexec hwait
  | getc =>
    have hread : WaitsAt r (acquireThen .getc finishGetc) (linkR7 s) :=
      acquireThen_waitsAt (fun _ => rfl) fun _ _ _ _ => waitsAt_of_pending rfl
    exact hread.step_deliver (exec_getc s) (exec_getc _) hrun hpend hexec hwait
  | inp =>
    have hread : WaitsAt r (acquireThen .inp finishIn) (emitAll Config.inPrompt (linkR7 s)) :=
      acquireThen_waitsAt (fun _ => rfl) fun _ _ _ _ => waitsAt_of_pending rfl
    exact hread.step_deliver (exec_inp s) (exec_inp _) hrun hpend hexec hwait
  | puts =>
    exact (textFrom_waitsAt (k := .puts) putsFrom_eq _ _).step_deliver (exec_puts s) (exec_puts _) hrun hpend hexec
      hwait
  | putsp =>
    exact (textFrom_waitsAt (k := .putsp) putspFrom_eq _ _).step_deliver (exec_putsp s) (exec_putsp _) hrun hpend hexec
      hwait

/-! ## Instructions that never ask -/

/-- Settles O55: no meaning of an instruction that never asks looks at the input. -/
theorem unreadInputHasNoEffect : Obligations.UnreadInputHasNoEffect := by
  unfold Obligations.UnreadInputHasNoEffect
  intro i s t q hi hexec
  cases i with
  | ld | ldi | ldr | sti | getc | inp | puts | putsp => cases hi
  | addReg | addImm | andReg | andImm | not | lea | st | str | jmp | jsr | jsrr | rti | invalid | trap | out | halt =>
    cases hexec
    exact ⟨rfl, rfl⟩
  | br n z p off9 =>
    have hflags : branchTaken n z p { s with input := q } = branchTaken n z p s := rfl
    rw [exec_br] at hexec ⊢
    cases hexec
    rw [hflags]
    split <;> exact ⟨rfl, rfl⟩

end Sys2Proof.Machine

/-!
PROOFS. Why a run ends (60_exceptions.md R120): by HALT, INVALID or RTI, or by the last answer a read has consumed.
-/

namespace Sys2Proof.Machine

open Sys2Proof

/-- The instruction itself ends the run, for its own reason. -/
def EndsByItself (i : Instr) (reason : TermReason) (status : Int) : Prop :=
  (reason = .halt ∧ i = .halt ∧ status = 0) ∨ (reason = .invalidOpcode ∧ i = .invalid ∧ status = 1)
    ∨ (reason = .rtiUnimplemented ∧ i = .rti ∧ status = Config.abortStatus)

/-- The last of the answers consumed between `s` and `t` ends the run. -/
def EndsByAnswer (reason : TermReason) (status : Int) (s t : State) : Prop :=
  (reason = .sentinel ∧ status = 0 ∧ ∃ used, s.input = used ++ .byte 0x03#8 :: t.input)
    ∨ (reason = .terminalUnavailable ∧ status = Config.abortStatus ∧ ∃ used, s.input = used ++ .unavailable :: t.input)

theorem EndsByAnswer.of_consumed {reason : TermReason} {status : Int} {s u t : State} (hsu : Consumed s u)
    (h : EndsByAnswer reason status u t) : EndsByAnswer reason status s t := by
  obtain ⟨before, hbefore, -⟩ := hsu
  obtain ⟨hreason, hstatus, used, hused⟩ | ⟨hreason, hstatus, used, hused⟩ := h
  · exact .inl ⟨hreason, hstatus, before ++ used, by rw [hbefore, hused, List.append_assoc]⟩
  · exact .inr ⟨hreason, hstatus, before ++ used, by rw [hbefore, hused, List.append_assoc]⟩

/-! ## The reads -/

/-- `u` still runs and has consumed answers of `s` only. -/
def RunsAfter (s u : State) : Prop := u.run = .running ∧ Consumed s u

/-- If `t` has terminated, an answer of `s` has ended the run. -/
def TerminatedByAnswer (s t : State) : Prop :=
  ∀ reason status, t.run = .terminated reason status → EndsByAnswer reason status s t

theorem RunsAfter.terminatedByAnswer {s u : State} (h : RunsAfter s u) : TerminatedByAnswer s u := by
  intro reason status ht
  rw [h.1] at ht
  cases ht

theorem readsLead_terminatedByAnswer (s : State) : ReadsLead (RunsAfter s) (TerminatedByAnswer s) where
  consume u r rest hin h := ⟨h.1, consumed_consumeAnswer s u r rest hin h.2⟩
  sentinel u rest h hin reason status ht := by
    obtain ⟨-, used, hused, -⟩ := h
    cases ht
    exact .inl ⟨rfl, rfl, used, hused.trans (congrArg _ hin)⟩
  unavailable u rest h hin reason status ht := by
    obtain ⟨-, used, hused, -⟩ := h
    cases ht
    exact .inr ⟨rfl, rfl, used, hused.trans (congrArg _ hin)⟩
  wait u k _ h := RunsAfter.terminatedByAnswer (u := setPending (some k) u) h

theorem carries_terminatedByAnswer (s : State) : Carries (RunsAfter s) (TerminatedByAnswer s) where
  reads := readsLead_terminatedByAnswer s
  done _ h := h.terminatedByAnswer
  reg _ _ _ h := h
  pc _ _ h := h
  flags _ _ h := h

/-! ## The instructions -/

/-- An instruction that may ask for a character ends the run by an answer only. -/
theorem exec_terminatedByAnswer {i : Instr} {s t : State} (hi : mayAcquire i = true) (hrun : s.run = .running)
    (hexec : exec i s = .next t) : TerminatedByAnswer s t := by
  have hends : EndsLead i (RunsAfter s) (TerminatedByAnswer s) := by
    constructor <;> (rintro rfl; cases hi)
  exact (carries_terminatedByAnswer s).exec (fun _ _ _ h => h) (fun _ _ _ _ h => h) hends ⟨hrun, consumed_refl s⟩ hexec

/-- An instruction that never asks ends the run by itself only. -/
theorem exec_endsByItself {i : Instr} {s t : State} {reason : TermReason} {status : Int} (hi : mayAcquire i = false)
    (hrun : s.run = .running) (hexec : exec i s = .next t) (ht : t.run = .terminated reason status) :
    EndsByItself i reason status := by
  cases i with
  | ld | ldi | ldr | sti | getc | inp | puts | putsp => cases hi
  | halt => cases hexec; cases ht; exact .inl ⟨rfl, rfl, rfl⟩
  | invalid => cases hexec; cases ht; exact .inr (.inl ⟨rfl, rfl, rfl⟩)
  | rti => cases hexec; cases ht; exact .inr (.inr ⟨rfl, rfl, rfl⟩)
  | addReg | addImm | andReg | andImm | not | lea | st | str | jmp | jsr | jsrr | trap | out =>
    cases hexec
    exact absurd (hrun.symm.trans ht) nofun
  | br n z p off9 =>
    rw [exec_br] at hexec
    cases hexec
    split at ht <;> exact absurd (hrun.symm.trans ht) nofun

theorem exec_ends {i : Instr} {s t : State} {reason : TermReason} {status : Int} (hrun : s.run = .running)
    (hexec : exec i s = .next t) (ht : t.run = .terminated reason status) :
    EndsByItself i reason status ∨ (mayAcquire i = true ∧ EndsByAnswer reason status s t) := by
  cases hi : mayAcquire i with
  | false => exact .inl (exec_endsByItself hi hrun hexec ht)
  | true => exact .inr ⟨rfl, exec_terminatedByAnswer hi hrun hexec reason status ht⟩

/-! ## The steps -/

/-- A fetched word is the one the step executes, and fetching it has at most consumed an answer. -/
theorem fetch_value {s s1 : State} {ir : Word} (hpend : s.pending = none) (h : fetch s = .value ir s1) :
    Executes (decode ir) s ∧ s1.run = s.run ∧ Consumed s s1 := by
  obtain ⟨hpc, hread⟩ | ⟨hpc, hread⟩ := memRead_cases s.pc s
  · rw [fetch, hread] at h
    cases h
    exact ⟨⟨hpend, .inl ⟨hpc, rfl⟩⟩, rfl, consumed_refl s⟩
  · rw [fetch, hread] at h
    obtain ⟨r, rest, b, hin, hb, h3, rfl, rfl⟩ := acquire_value h
    have hreceived : Received r (zextByte (translateCr b)) := (received_iff _ _).2 ⟨b, hb, h3, rfl⟩
    exact ⟨⟨hpend, .inr ⟨hpc, r, rest, _, hin, hreceived, rfl⟩⟩, rfl,
      consumed_consumeAnswer s s r rest hin (consumed_refl s)⟩

/-- A fetch that ends the run is one at the keyboard, ended by its answer. -/
theorem fetch_ended {s t : State} (hrun : s.run = .running) (h : fetch s = .ended t) :
    s.pc = kbdrAddr ∧ TerminatedByAnswer s t := by
  obtain ⟨-, hread⟩ | ⟨hpc, hread⟩ := memRead_cases s.pc s
  · rw [fetch, hread] at h
    cases h
  · have hs : RunsAfter s s := ⟨hrun, consumed_refl s⟩
    rw [fetch, hread] at h
    obtain ⟨rest, hin, rfl⟩ | ⟨rest, hin, rfl⟩ := acquire_ended h
    · exact ⟨hpc, (readsLead_terminatedByAnswer s).unavailable s rest hs hin⟩
    · exact ⟨hpc, (readsLead_terminatedByAnswer s).sentinel s rest hs hin⟩

theorem step_ends {s t : State} {reason : TermReason} {status : Int} (hstep : step s = .next t)
    (ht : t.run = .terminated reason status) :
    s.run = .running
      ∧ ((∃ i, Executes i s ∧ EndsByItself i reason status) ∨ (MayAsk s ∧ EndsByAnswer reason status s t)) := by
  obtain ⟨hrun, ⟨k, hpend, rfl⟩ | ⟨hpend, ir, s1, hfetch, hexec⟩ | ⟨hpend, hfetch⟩ | ⟨hpend, -, rfl⟩⟩ :=
    step_cases hstep
  · have hs : RunsAfter s (setPending none s) := ⟨hrun, consumed_refl s⟩
    have hask : MayAsk s := .inl (by rw [hpend]; exact nofun)
    exact ⟨hrun, .inr ⟨hask, (carries_terminatedByAnswer s).resumePending (fun _ _ h => h) (fun _ _ _ h => h) k hs
      reason status ht⟩⟩
  · obtain ⟨hexecutes, hrun1, hconsumed⟩ := fetch_value hpend hfetch
    obtain hself | ⟨hask, hanswer⟩ := exec_ends (s := advancePc s1) (hrun1.trans hrun) hexec ht
    · exact ⟨hrun, .inl ⟨_, hexecutes, hself⟩⟩
    · exact ⟨hrun, .inr ⟨.inr (.inr ⟨_, hexecutes, hask⟩), hanswer.of_consumed (u := advancePc s1) hconsumed⟩⟩
  · obtain ⟨hpc, hended⟩ := fetch_ended hrun hfetch
    exact ⟨hrun, .inr ⟨.inr (.inl ⟨hpend, hpc⟩), hended reason status ht⟩⟩
  · exact absurd (hrun.symm.trans ht) nofun

/-! ## The obligation -/

/-- Settles O56: what ends an instruction, and what ends a step, sorted by the five reasons. -/
theorem runEndsOnlyForItsReasons : Obligations.RunEndsOnlyForItsReasons := by
  unfold Obligations.RunEndsOnlyForItsReasons
  refine ⟨fun i s t reason status hrun hexec ht => ?exec, fun s t reason status hstep ht => ?step⟩
  case exec =>
    obtain hself | ⟨hask, ⟨hr, hs, hused⟩ | ⟨hr, hs, hused⟩⟩ := exec_ends hrun hexec ht
    · obtain h | h | h := hself
      · exact .inl h
      · exact .inr (.inl h)
      · exact .inr (.inr (.inl h))
    · exact .inr (.inr (.inr (.inl ⟨hr, hask, hs, hused⟩)))
    · exact .inr (.inr (.inr (.inr ⟨hr, hask, hs, hused⟩)))
  case step =>
    obtain ⟨hrun, ⟨i, hi, hself⟩ | ⟨hask, ⟨hr, hs, hused⟩ | ⟨hr, hs, hused⟩⟩⟩ := step_ends hstep ht
    · refine ⟨hrun, ?_⟩
      obtain ⟨hr, rfl, hs⟩ | ⟨hr, rfl, hs⟩ | ⟨hr, rfl, hs⟩ := hself
      · exact .inl ⟨hr, hi, hs⟩
      · exact .inr (.inl ⟨hr, hi, hs⟩)
      · exact .inr (.inr (.inl ⟨hr, hi, hs⟩))
    · exact ⟨hrun, .inr (.inr (.inr (.inl ⟨hr, hask, hs, hused⟩)))⟩
    · exact ⟨hrun, .inr (.inr (.inr (.inr ⟨hr, hask, hs, hused⟩)))⟩

end Sys2Proof.Machine

/-!
PROOFS. The file of an image (70_reset_and_hazards.md R145): big-endian words, the origin first.
-/

namespace Sys2Proof.Machine

open Sys2Proof

/-- The two bytes of a word, the high one first (70_reset_and_hazards.md R145). -/
def bigEndian (w : Word) : List Byte := [highBits w, lowBits w]

theorem highByte_append_lowByte (w : Word) : highByte w ++ lowByte w = w := by
  apply BitVec.eq_of_getLsbD_eq
  intro k hk
  interval_cases k <;> simp only [BitVec.getLsbD_append] <;> simp [highByte, lowByte]

theorem wordsOfBytes_bigEndian (ws : List Word) : wordsOfBytes (ws.flatMap bigEndian) = some ws := by
  induction ws with
  | nil => rfl
  | cons w ws ih =>
    have hw : highBits w ++ lowBits w = w := by rw [← highByte_eq, ← lowByte_eq, highByte_append_lowByte]
    calc wordsOfBytes (highBits w :: lowBits w :: ws.flatMap bigEndian)
      _ = (wordsOfBytes (ws.flatMap bigEndian)).map ((highBits w ++ lowBits w) :: ·) := rfl
      _ = some (w :: ws) := by rw [ih, hw, Option.map_some]

theorem wordsOfBytes_odd (file : List Byte) (h : file.length % 2 = 1) : wordsOfBytes file = none := by
  induction file using wordsOfBytes.induct with
  | case1 => cases h
  | case2 => rfl
  | case3 hi lo rest ih =>
    have hrest : rest.length % 2 = 1 := by simpa only [List.length_cons, Nat.add_mod_right, Nat.add_assoc] using h
    rw [wordsOfBytes, ih hrest, Option.map_none]

theorem Image.ofBytes_bigEndian (img : Image) :
    Image.ofBytes ((img.origin :: img.words).flatMap bigEndian) = if img.fits then some img else none := by
  rw [Image.ofBytes, wordsOfBytes_bigEndian]

theorem Image.ofBytes_odd {file : List Byte} (h : file.length % 2 = 1) : Image.ofBytes file = none := by
  rw [Image.ofBytes, wordsOfBytes_odd file h]

/-- Settles O59: a file of words gives its words back, and the image they make is answered if it fits. -/
theorem imageFileIsBigEndianWords : Obligations.ImageFileIsBigEndianWords := by
  unfold Obligations.ImageFileIsBigEndianWords
  refine ⟨fun img hfits => ?fits, fun _ => Image.ofBytes_odd, rfl, fun img hfits => ?overruns⟩
  case fits => exact (Image.ofBytes_bigEndian img).trans (if_pos hfits)
  case overruns => exact (Image.ofBytes_bigEndian img).trans (if_neg (ne_true_of_eq_false hfits))

end Sys2Proof.Machine
